-- ==== Sys2Proof/Word.lean ====
section
/-! DEFINITION. Words and the plain records that pass between the units of the block (spec/00_scope.md R9, spec/10_state.md R24, R29, R41, R43, spec/60_exceptions.md R285). -/

namespace Sys2Proof

/-- A line level, a sampled bit or a one-bit register (R9). -/
abbrev Bit := Bool

/-- A byte: bit 7 is the most significant (R9). -/
abbrev Byte := BitVec 8

/-- A 16-bit value: payload length, running sum, received checksum (R31). -/
abbrev Half := BitVec 16

/-- A 2-bit pixel value `0 .. 3` (R41). -/
abbrev Pixel := BitVec 2

/-- A margin field of a `PRINT` payload, `0 .. 15` (R109). -/
abbrev Nibble := BitVec 4

/-- A pixel row; the buffer's rows have exactly 160 pixels (R41). -/
abbrev PixelRow := List Pixel

/-- Which transition of `Clock` a bit was sampled on (R24, parameter `ACTIVE_EDGE` of R7). -/
inductive Edge where
  | rising
  | falling
  deriving DecidableEq, Repr

/-- The spec's `Bit` record: a value and the edge it was sampled on (R24). -/
structure SampledBit where
  value : Bit
  edge : Edge
  deriving DecidableEq, Repr

/-- The eight packet states (R29). -/
inductive PacketState where
  | idle
  | sync1
  | sync2
  | readCompression
  | readLength
  | readPayload
  | readChecksum
  | readKeepAlive
  deriving DecidableEq, Repr

/-- The seven error kinds (R285). -/
inductive ErrorKind where
  | transportOverflow
  | checksumMismatch
  | payloadOverflow
  | truncatedRun
  | malformedTileData
  | unsupportedCommand
  | malformedPrintParameters
  deriving DecidableEq, Repr

/-- The five packet commands of the source's enumeration (R43, R100). -/
inductive Command where
  | init
  | print
  | data
  | status
  | unknown
  deriving DecidableEq, Repr

/-- The fields of a `PRINT` payload (R43, R108). -/
structure PrintParameters where
  sheets : Byte
  marginBefore : Nibble
  marginAfter : Nibble
  palette : Byte
  exposure : Byte
  deriving DecidableEq, Repr

/-- What finalize returns and `ImageReady` carries (R43). -/
structure FinishedImage where
  width : Nat
  depth : Nat
  height : Nat
  rows : List PixelRow
  marginBefore : Nibble
  marginAfter : Nibble
  deriving DecidableEq, Repr

/-- A completed packet: the source's `Packet` with the mismatch recorded in it (R43, R190). -/
structure Packet where
  command : Command
  commandByte : Byte
  compressed : Bool
  payload : List Byte
  checksum : Half
  checksumOk : Bool
  deriving DecidableEq, Repr

end Sys2Proof
end

