-- ==== Sys2Proof/Config.lean ====
section
/-! DEFINITION. The constants the source fixes, the configuration record `cfg` of spec/00_scope.md R7, its constraints, and the one free value (the textual context of an error event, R44). -/

namespace Sys2Proof

/-- First byte of the sync marker (R7, R99). -/
def Config.sync1 : Byte := 0x88#8

/-- Second byte of the sync marker (R7, R99). -/
def Config.sync2 : Byte := 0x33#8

/-- What goes out when no reply is pending (R7; the spec's decision D13, notes/assumptions/14.md). -/
def Config.txFillByte : Byte := 0x00#8

/-- The value of a blank pixel (R7; the spec's decision D27, notes/assumptions/18.md). -/
def Config.blankPixel : Pixel := 0#2

/-- Pixels in a row of the raster (R7, R41). -/
def Config.width : Nat := 160

/-- Bits per pixel (R7, R41). -/
def Config.bpp : Nat := 2

/-- Tile edge in pixels (R7). -/
def Config.tile : Nat := 8

/-- Tiles in a tile row (R7, R246). -/
def Config.tilesPerRow : Nat := 20

/-- Bytes of one tile (R7, R246). -/
def Config.tileBytes : Nat := 16

/-- Bytes of one tile row (R7, R246). -/
def Config.tileRowBytes : Nat := 320

/-- FREE VALUE. The "textual context" of the `n`-th error event: its content is fixed by no rule and read by none (R44, R275, D30; notes/assumptions/4.md). -/
opaque Config.errorContext : Nat → String

/-- The one mode for which the block exists: `"printer"` (R40, D38). -/
inductive Mode where
  | printer
  deriving DecidableEq, Repr

/-- The open parameters of R7, fixed for a run and written by no rule. R7 leaves the type of
`JITTER_MARGIN` unspecified; that `jitterMargin` is a natural number is a DESIGN CHOICE of the model,
and no operation reads it (notes/assumptions/20.md). -/
structure Cfg where
  mode : Mode
  activeEdge : Edge
  selectAsserted : Bit
  sdIdleThreshold : Nat
  backlogDepth : Nat
  jitterMargin : Nat
  cmdInit : Byte
  cmdPrint : Byte
  cmdData : Byte
  cmdStatus : Byte
  keepAliveByte : Byte
  maxHeight : Nat
  posChecksumError : Fin 8
  posBusy : Fin 8
  posPacketError : Fin 8
  posPaperOut : Fin 8
  posUnsupported : Fin 8
  marginUnitRows : Nat
  deriving DecidableEq, Repr

/-- The four command bytes are pairwise distinct (R7). -/
def Cfg.commandsDistinct (c : Cfg) : Bool :=
  c.cmdInit != c.cmdPrint && c.cmdInit != c.cmdData && c.cmdInit != c.cmdStatus &&
    c.cmdPrint != c.cmdData && c.cmdPrint != c.cmdStatus && c.cmdData != c.cmdStatus

/-- The five flag positions of the status byte are pairwise distinct (R7). -/
def Cfg.positionsDistinct (c : Cfg) : Bool :=
  decide [c.posChecksumError, c.posBusy, c.posPacketError, c.posPaperOut, c.posUnsupported].Nodup

/-- The constraints a model must place on `cfg` (R7; U1, U5, U13, U14). -/
def Cfg.wf (c : Cfg) : Bool :=
  c.commandsDistinct && c.positionsDistinct && decide (1 ≤ c.backlogDepth) && c.maxHeight % 8 == 0

/-- The configuration CFG0 of spec/95_test_vectors.md: R7's defaults, and CFG0's example values for
`SD_IDLE_THRESHOLD`, `MAX_HEIGHT` and `MARGIN_UNIT_ROWS`; `JITTER_MARGIN`, for which no file gives a
value, is 0 and read by no rule. DESIGN CHOICE, unsafe: notes/assumptions/2.md. -/
def Cfg.cfg0 : Cfg where
  mode := .printer
  activeEdge := .rising
  selectAsserted := true
  sdIdleThreshold := 1000
  backlogDepth := 1
  jitterMargin := 0
  cmdInit := 0x01#8
  cmdPrint := 0x02#8
  cmdData := 0x04#8
  cmdStatus := 0x0F#8
  keepAliveByte := 0x81#8
  maxHeight := 2880
  posChecksumError := 0
  posBusy := 1
  posPacketError := 4
  posPaperOut := 5
  posUnsupported := 6
  marginUnitRows := 8

end Sys2Proof
end

