-- ==== Sys2Proof/Syntax.lean ====
section
/-! DEFINITION. The operations of the block: one constructor per row of spec/opcode_table.json (spec/00_scope.md R3). -/

namespace Sys2Proof

/-- The operations ("instructions", R3) of the four levels, and the internal sub-operations the
opcode table lists. A level-P operation takes the completed packet of R190 from the frame registers
(notes/assumptions/6.md). -/
inductive Instr where
  -- Level W: wire events (R91)
  | reset
  | poll (clk si sd : Bit)
  | hostSetBusy (b : Bit)
  -- Level B: byte handlers (R98)
  | idleSync1
  | idleSkip (b : Byte)
  | sync1Sync2
  | sync1Resync (b : Byte)
  | sync2Cmd (b : Byte)
  | rdComp (b : Byte)
  | rdLenLo (b : Byte)
  | rdLenHi (b : Byte)
  | rdPay (b : Byte)
  | rdCksLo (b : Byte)
  | rdCksHi (b : Byte)
  | rdKa (b : Byte)
  -- Level P: packet commands (R100)
  | cmdInit
  | cmdPrint
  | cmdData
  | cmdStatus
  | cmdUnknown (commandByte : Byte)
  -- Level R: RLE control bytes (R103)
  | rleRepeat (n : BitVec 7)
  | rleLiteral (n : BitVec 7)
  -- Internal sub-operations, not decoded from bits
  | selectMonitor (sd : Bit)
  | edgeDetect (clk : Bit)
  | sample (si : Bit)
  | drain
  | shiftEdge (v : Bit)
  | rxBit (v : Bit)
  | txBit
  | byteIn (b : Byte)
  | dispatch
  | decompress (input : List Byte)
  | append (data : List Byte)
  | tileRowDecode (d : Vector Byte 320)
  | finalize (params : PrintParameters)
  | emitImageReady (image : FinishedImage) (params : PrintParameters)
  | emitProtocolError (kind : ErrorKind)
  | busReset
  deriving DecidableEq, Repr

end Sys2Proof
end

