-- ==== Sys2Proof/WellFormed.lean ====
section
/-! DEFINITION. Which operations are well formed: the operands the selecting condition of each row of spec/30_encoding.md R98 and R100 admits, and the shape of a finished image (spec/10_state.md R43). -/

namespace Sys2Proof

/-- The command byte is none of the four configured ones (R100). -/
def Cfg.isUnknown (c : Cfg) (b : Byte) : Bool :=
  b != c.cmdInit && b != c.cmdPrint && b != c.cmdData && b != c.cmdStatus

/-- A finished image has width 160, depth 2, as many rows as its height, each of 160 pixels (R43). -/
def FinishedImage.wf (image : FinishedImage) : Bool :=
  image.width == Config.width && image.depth == Config.bpp && image.height == image.rows.length &&
    image.rows.all (fun r => r.length == Config.width)

/-- An operation is one that the block can carry out under `cfg`: its operand is one its row admits. -/
def Instr.wellFormed (c : Cfg) : Instr → Bool
  | .idleSkip b => b != Config.sync1
  | .sync1Resync b => b != Config.sync2
  | .cmdUnknown b => c.isUnknown b
  | .emitImageReady image _ => image.wf
  | .reset => true
  | .poll _ _ _ => true
  | .hostSetBusy _ => true
  | .idleSync1 => true
  | .sync1Sync2 => true
  | .sync2Cmd _ => true
  | .rdComp _ => true
  | .rdLenLo _ => true
  | .rdLenHi _ => true
  | .rdPay _ => true
  | .rdCksLo _ => true
  | .rdCksHi _ => true
  | .rdKa _ => true
  | .cmdInit => true
  | .cmdPrint => true
  | .cmdData => true
  | .cmdStatus => true
  | .rleRepeat _ => true
  | .rleLiteral _ => true
  | .selectMonitor _ => true
  | .edgeDetect _ => true
  | .sample _ => true
  | .drain => true
  | .shiftEdge _ => true
  | .rxBit _ => true
  | .txBit => true
  | .byteIn _ => true
  | .dispatch => true
  | .decompress _ => true
  | .append _ => true
  | .tileRowDecode _ => true
  | .finalize _ => true
  | .emitProtocolError _ => true
  | .busReset => true

/-- The sub-operations that are called by others and never decoded from bits (the table's level "internal"). -/
def Instr.isInternal : Instr → Bool
  | .selectMonitor _ => true
  | .edgeDetect _ => true
  | .sample _ => true
  | .drain => true
  | .shiftEdge _ => true
  | .rxBit _ => true
  | .txBit => true
  | .byteIn _ => true
  | .dispatch => true
  | .decompress _ => true
  | .append _ => true
  | .tileRowDecode _ => true
  | .finalize _ => true
  | .emitImageReady _ _ => true
  | .emitProtocolError _ => true
  | .busReset => true
  | .reset => false
  | .poll _ _ _ => false
  | .hostSetBusy _ => false
  | .idleSync1 => false
  | .idleSkip _ => false
  | .sync1Sync2 => false
  | .sync1Resync _ => false
  | .sync2Cmd _ => false
  | .rdComp _ => false
  | .rdLenLo _ => false
  | .rdLenHi _ => false
  | .rdPay _ => false
  | .rdCksLo _ => false
  | .rdCksHi _ => false
  | .rdKa _ => false
  | .cmdInit => false
  | .cmdPrint => false
  | .cmdData => false
  | .cmdStatus => false
  | .cmdUnknown _ => false
  | .rleRepeat _ => false
  | .rleLiteral _ => false

end Sys2Proof
end

