-- ==== Sys2Proof/Decode.lean ====
section
/-! DEFINITION. Decoding at the four levels (spec/30_encoding.md R91, R98, R100, R103) and the encoder written from the same tables. -/

namespace Sys2Proof

/-- The kind of a level-W event: a tag, not bits (R91). -/
inductive EventKind where
  | reset
  | poll
  | hostSetBusy
  deriving DecidableEq, Repr

/-- A level-W event as the environment presents it: its kind and the bytes of its word (R91). -/
structure Event where
  kind : EventKind
  word : List Byte
  deriving DecidableEq, Repr

/-- Where a word stands; decoding depends on it (R90, R98). -/
inductive Place where
  | event (kind : EventKind)
  | byteSlot (ps : PacketState) (bidx : Bit)
  | command
  | control
  deriving DecidableEq, Repr

/-- Why a word is no word of its place. -/
inductive Reject where
  /-- The place needs a byte and there is none. -/
  | noWord
  /-- There are more bytes than the word of the place has. -/
  | extraBytes
  /-- A bit above the word's width is set: a `POLL` word has 3 bits, a `HOST_SET_BUSY` word has 1 (R91). -/
  | unusedBits
  deriving DecidableEq, Repr

/-- What decoding answers. -/
inductive Decoded where
  | instr (i : Instr)
  | reject (r : Reject)
  deriving DecidableEq, Repr

/-- The accepted operation, if any. -/
def Decoded.toOption : Decoded → Option Instr
  | .instr i => some i
  | .reject _ => none

/-- The twelve level-B rows of R98, as `BYTE_IN` selects them. -/
inductive ByteRow where
  | idleSync1
  | idleSkip (b : Byte)
  | sync1Sync2
  | sync1Resync (b : Byte)
  | sync2Cmd (b : Byte)
  | rdComp (b : Byte)
  | rdLenLo (b : Byte)
  | rdLenHi (b : Byte)
  | rdPay (b : Byte)
  | rdCksLo (b : Byte)
  | rdCksHi (b : Byte)
  | rdKa (b : Byte)
  deriving DecidableEq, Repr

/-- The operation of a level-B row. -/
def ByteRow.instr : ByteRow → Instr
  | .idleSync1 => .idleSync1
  | .idleSkip b => .idleSkip b
  | .sync1Sync2 => .sync1Sync2
  | .sync1Resync b => .sync1Resync b
  | .sync2Cmd b => .sync2Cmd b
  | .rdComp b => .rdComp b
  | .rdLenLo b => .rdLenLo b
  | .rdLenHi b => .rdLenHi b
  | .rdPay b => .rdPay b
  | .rdCksLo b => .rdCksLo b
  | .rdCksHi b => .rdCksHi b
  | .rdKa b => .rdKa b

/-- The table of R98: total, and a row with a fixed value wins over the row "any other". `bidx` is 0
for the low byte and 1 for the high byte (R30). -/
def decodeByte (ps : PacketState) (bidx : Bit) (b : Byte) : ByteRow :=
  match ps with
  | .idle => if b = Config.sync1 then .idleSync1 else .idleSkip b
  | .sync1 => if b = Config.sync2 then .sync1Sync2 else .sync1Resync b
  | .sync2 => .sync2Cmd b
  | .readCompression => .rdComp b
  | .readLength => if bidx then .rdLenHi b else .rdLenLo b
  | .readPayload => .rdPay b
  | .readChecksum => if bidx then .rdCksHi b else .rdCksLo b
  | .readKeepAlive => .rdKa b

/-- Classification of the command byte, tested in the order of R100. -/
def classify (c : Cfg) (b : Byte) : Command :=
  if b = c.cmdInit then .init
  else if b = c.cmdPrint then .print
  else if b = c.cmdData then .data
  else if b = c.cmdStatus then .status
  else .unknown

/-- The level-P row of a command byte (R100). -/
def decodeCommand (c : Cfg) (b : Byte) : Instr :=
  match classify c b with
  | .init => .cmdInit
  | .print => .cmdPrint
  | .data => .cmdData
  | .status => .cmdStatus
  | .unknown => .cmdUnknown b

/-- The low seven bits of a control byte: the run length less one (R103, R104). -/
def runField (b : Byte) : BitVec 7 := b.extractLsb' 0 7

/-- The level-R row of a control byte: bit 7 alone decides (R103, R105). -/
def decodeControl (b : Byte) : Instr :=
  if b.msb then .rleRepeat (runField b) else .rleLiteral (runField b)

/-- A level-W event from its kind and its word: `POLL` is the 3-bit word `{clk, si, sd}`,
`HOST_SET_BUSY` a 1-bit word, `RESET` has none (R91). The bits above the word are 0
(notes/assumptions/9.md). -/
def decodeEvent (kind : EventKind) (bytes : List Byte) : Decoded :=
  match kind, bytes with
  | .reset, [] => .instr .reset
  | .reset, _ :: _ => .reject .extraBytes
  | .poll, [] => .reject .noWord
  | .poll, [w] =>
    if w.toNat < 8 then .instr (.poll (w.getLsbD 2) (w.getLsbD 1) (w.getLsbD 0))
    else .reject .unusedBits
  | .poll, _ :: _ :: _ => .reject .extraBytes
  | .hostSetBusy, [] => .reject .noWord
  | .hostSetBusy, [w] =>
    if w.toNat < 2 then .instr (.hostSetBusy (w.getLsbD 0)) else .reject .unusedBits
  | .hostSetBusy, _ :: _ :: _ => .reject .extraBytes

/-- Decoding of the bytes that stand at a place, total, rejecting by name. -/
def decode (c : Cfg) (place : Place) (bytes : List Byte) : Decoded :=
  match place, bytes with
  | .event kind, _ => decodeEvent kind bytes
  | .byteSlot ps bidx, [b] => .instr (decodeByte ps bidx b).instr
  | .command, [b] => .instr (decodeCommand c b)
  | .control, [b] => .instr (decodeControl b)
  | .byteSlot _ _, [] => .reject .noWord
  | .command, [] => .reject .noWord
  | .control, [] => .reject .noWord
  | .byteSlot _ _, _ :: _ :: _ => .reject .extraBytes
  | .command, _ :: _ :: _ => .reject .extraBytes
  | .control, _ :: _ :: _ => .reject .extraBytes

/-- The word `{clk, si, sd}` in the low bits of a byte (R91). -/
def pollWord (clk si sd : Bit) : Byte :=
  0#5 ++ (BitVec.ofBool clk ++ BitVec.ofBool si ++ BitVec.ofBool sd)

/-- The word of `HOST_SET_BUSY` in the low bit of a byte (R91). -/
def busyWord (b : Bit) : Byte := 0#7 ++ BitVec.ofBool b

/-- The place and the bytes of an operation, from the tables of R91, R98, R100 and R103; none for an
internal sub-operation, which is not decoded from bits. -/
def encode (c : Cfg) : Instr → Option (Place × List Byte)
  | .reset => some (.event .reset, [])
  | .poll clk si sd => some (.event .poll, [pollWord clk si sd])
  | .hostSetBusy b => some (.event .hostSetBusy, [busyWord b])
  | .idleSync1 => some (.byteSlot .idle false, [Config.sync1])
  | .idleSkip b => some (.byteSlot .idle false, [b])
  | .sync1Sync2 => some (.byteSlot .sync1 false, [Config.sync2])
  | .sync1Resync b => some (.byteSlot .sync1 false, [b])
  | .sync2Cmd b => some (.byteSlot .sync2 false, [b])
  | .rdComp b => some (.byteSlot .readCompression false, [b])
  | .rdLenLo b => some (.byteSlot .readLength false, [b])
  | .rdLenHi b => some (.byteSlot .readLength true, [b])
  | .rdPay b => some (.byteSlot .readPayload false, [b])
  | .rdCksLo b => some (.byteSlot .readChecksum false, [b])
  | .rdCksHi b => some (.byteSlot .readChecksum true, [b])
  | .rdKa b => some (.byteSlot .readKeepAlive false, [b])
  | .cmdInit => some (.command, [c.cmdInit])
  | .cmdPrint => some (.command, [c.cmdPrint])
  | .cmdData => some (.command, [c.cmdData])
  | .cmdStatus => some (.command, [c.cmdStatus])
  | .cmdUnknown b => some (.command, [b])
  | .rleRepeat n => some (.control, [1#1 ++ n])
  | .rleLiteral n => some (.control, [0#1 ++ n])
  | .selectMonitor _ => none
  | .edgeDetect _ => none
  | .sample _ => none
  | .drain => none
  | .shiftEdge _ => none
  | .rxBit _ => none
  | .txBit => none
  | .byteIn _ => none
  | .dispatch => none
  | .decompress _ => none
  | .append _ => none
  | .tileRowDecode _ => none
  | .finalize _ => none
  | .emitImageReady _ _ => none
  | .emitProtocolError _ => none
  | .busReset => none

/-- The place a bare table word is read at. The table's rows overlap, since the same byte means
different things at different places (R98); a bare word carries no place, so the row with the most
fixed bits is taken: the two sync bytes, then the four default command bytes, then the RLE control
byte. A word of no bits is `RESET`, of one bit `HOST_SET_BUSY`, of three bits `POLL`
(notes/assumptions/10.md). -/
def tablePlace (nbits w : Nat) : Option Place :=
  if 2 ^ nbits ≤ w then none
  else match nbits with
  | 0 => some (.event .reset)
  | 1 => some (.event .hostSetBusy)
  | 3 => some (.event .poll)
  | 8 =>
    if BitVec.ofNat 8 w = Config.sync1 then some (.byteSlot .idle false)
    else if BitVec.ofNat 8 w = Config.sync2 then some (.byteSlot .sync1 false)
    else match classify Cfg.cfg0 (BitVec.ofNat 8 w) with
    | .unknown => some .control
    | _ => some .command
  | _ => none

/-- The bytes of a bare table word. -/
def tableBytes (nbits w : Nat) : List Byte :=
  if nbits = 0 then [] else [BitVec.ofNat 8 w]

/-- The operation the decoder reads from a bare table word (under R7's default command bytes). -/
def decodeTableWord (nbits w : Nat) : Option Instr :=
  match tablePlace nbits w with
  | some place => (decode Cfg.cfg0 place (tableBytes nbits w)).toOption
  | none => none

end Sys2Proof
end

