-- ==== Sys2Proof/Machine/State.lean ====
section
/-! DEFINITION. The machine's state (spec/10_state.md R20 to R47), plain data, its value after reset (R46), and why a step can stop. -/

namespace Sys2Proof.Machine

/-- Data-path registers of the bit transport (R22, R23, R24). -/
structure Transport where
  clkPrev : Option Bit
  sdCnt : Nat
  fifo : List SampledBit
  deriving DecidableEq, Repr

/-- Partial-byte state of the byte shifter, both directions (R25, R26). -/
structure Shifter where
  rxSr : Byte
  rxCnt : Fin 8
  txSr : Byte
  txCnt : Fin 8
  txNext : Byte
  deriving DecidableEq, Repr

/-- The in-flight packet state (R33): packet state, sub-indices, header registers, payload buffer
(R29 to R32). `bidx` is 0 (`false`) for the low byte and 1 (`true`) for the high byte. -/
structure Frame where
  ps : PacketState
  bidx : Bit
  pidx : Nat
  cmd : Byte
  comp : Byte
  len : Half
  sum : Half
  cks : Half
  ckOk : Bit
  pbuf : List Byte
  deriving DecidableEq, Repr

/-- The status flags of the SessionState (R34, R35, R37, R38); `paper_out` is not state (R36). -/
structure Flags where
  checksumError : Bit
  busy : Bit
  unsupported : Bit
  packetError : Bit
  deriving DecidableEq, Repr

/-- An output event (R44). The `context` of an error event is the number of its draw; its text is
`Config.errorContext` of that number, a free value (notes/assumptions/4.md). -/
inductive OutEvent where
  | imageReady (image : FinishedImage) (params : PrintParameters)
  | protocolError (kind : ErrorKind) (context : Nat)
  deriving DecidableEq, Repr

/-- The textual context of an error event (R44, R275): a free value, read by no rule. -/
def OutEvent.contextText : OutEvent → Option String
  | .imageReady _ _ => none
  | .protocolError _ n => some (Config.errorContext n)

/-- The working values of `DECOMPRESS` (R230): input not yet read, output so far, and whether a run
was truncated. -/
structure Rle where
  input : List Byte
  output : List Byte
  truncated : Bool
  deriving DecidableEq, Repr

/-- What an internal operation executed on its own returned; the model's own, touched by no step
(notes/assumptions/5.md). -/
structure Returned where
  edge : Bit
  rle : Rle
  tileRow : List PixelRow
  image : Option FinishedImage
  deriving DecidableEq, Repr

/-- The machine. `cfg` is R7's record (notes/assumptions/2.md); `transport` to `out` are the spec's
`st`; `inputs`, `draws` and `ret` are the model's own (notes/assumptions/1.md, 4.md, 5.md). -/
structure State where
  cfg : Cfg
  transport : Transport
  shifter : Shifter
  frame : Frame
  flags : Flags
  rows : List PixelRow
  out : List OutEvent
  inputs : List Event
  draws : Nat
  ret : Returned
  deriving DecidableEq, Repr

/-- The reasons to stop with a fault: none. The block has no trap and nothing in it stops the
machine: each of its seven error kinds is a next state (R286, R300, R301). -/
inductive Fault where
  deriving DecidableEq, Repr

/-- The reasons a step can be refused. -/
inductive Refusal where
  /-- Raised by `exec` for an operation the model gives no meaning to. No arm raises it. Safe. -/
  | notModelled (mnemonic : String)
  /-- Raised by `step` when `cfg` breaks a constraint of R7; the spec's treatment is `refuse` (U1, U5,
  U13, U14; notes/assumptions/3.md). Safe: nothing is proved of such a configuration. -/
  | badConfiguration
  /-- Raised by `step` when the pending event's word is no word of its kind (R91;
  notes/assumptions/9.md). Safe: the environment has no such event. -/
  | badEvent (reason : Reject)
  deriving DecidableEq, Repr

/-- R46, first rows. -/
def Transport.reset : Transport := { clkPrev := none, sdCnt := 0, fifo := [] }

/-- R46: the shifter's partial-byte state. -/
def Shifter.reset : Shifter :=
  { rxSr := 0x00#8, rxCnt := 0, txSr := Config.txFillByte, txCnt := 0, txNext := Config.txFillByte }

/-- R46: the in-flight packet state. -/
def Frame.reset : Frame :=
  { ps := .idle, bidx := false, pidx := 0, cmd := 0, comp := 0, len := 0, sum := 0, cks := 0,
    ckOk := false, pbuf := [] }

/-- R46: all flags 0. -/
def Flags.reset : Flags :=
  { checksumError := false, busy := false, unsupported := false, packetError := false }

/-- No decompression under way. -/
def Rle.reset : Rle := { input := [], output := [], truncated := false }

/-- Nothing returned yet. -/
def Returned.reset : Returned := { edge := false, rle := .reset, tileRow := [], image := none }

/-- The state after `RESET` under a configuration (R46), with no event pending. -/
def State.initial (c : Cfg) : State :=
  { cfg := c, transport := .reset, shifter := .reset, frame := .reset, flags := .reset, rows := [],
    out := [], inputs := [], draws := 0, ret := .reset }

/-- The machine right after reset (R320, R46), under CFG0 (notes/assumptions/2.md). -/
def State.reset : State := State.initial Cfg.cfg0

/-- Write the bit transport's registers. -/
def State.setTransport (s : State) (v : Transport) : State := { s with transport := v }

/-- Write the shifter's registers. -/
def State.setShifter (s : State) (v : Shifter) : State := { s with shifter := v }

/-- Write the in-flight packet state. -/
def State.setFrame (s : State) (v : Frame) : State := { s with frame := v }

/-- Write the flags. -/
def State.setFlags (s : State) (v : Flags) : State := { s with flags := v }

/-- Write the ImageBuffer. -/
def State.setRows (s : State) (v : List PixelRow) : State := { s with rows := v }

/-- Write the output trace. -/
def State.setOut (s : State) (v : List OutEvent) : State := { s with out := v }

/-- Write the pending events. -/
def State.setInputs (s : State) (v : List Event) : State := { s with inputs := v }

/-- Write the count of drawn contexts. -/
def State.setDraws (s : State) (v : Nat) : State := { s with draws := v }

/-- Write what an internal operation returned. -/
def State.setRet (s : State) (v : Returned) : State := { s with ret := v }

end Sys2Proof.Machine
end

