-- ==== Sys2Proof/Machine/Operands.lean ====
section
/-! DEFINITION. Operand forms: bit shifts, little-endian fields, the running sum, run lengths, the `PRINT` payload, tile pixels, the completed packet (spec/30_encoding.md R96 to R110, spec/41_byte_shifter.md R160, R161, spec/42_packet_fsm.md R187, R190). -/

namespace Sys2Proof.Machine

/-- `{ v[6:0], b }`: shift left by one, `b` enters at bit 0 (R160). -/
def shiftIn (v : Byte) (b : Bit) : Byte := v.shiftConcat b

/-- `{ h[15:8], b }`: write the low byte (R183, R186). -/
def setLowByte (h : Half) (b : Byte) : Half := h.extractLsb' 8 8 ++ b

/-- `{ b, h[7:0] }`: write the high byte (R184, R189). -/
def setHighByte (h : Half) (b : Byte) : Half := b ++ h.extractLsb' 0 8

/-- `sum +_16 zext_16(b)` (R64, R187). -/
def addByte (sum : Half) (b : Byte) : Half := sum + b.zeroExtend 16

/-- The run length of a control byte's low bits: `n + 1`, in `1 .. 128` (R104). -/
def runLength (n : BitVec 7) : Nat := n.toNat + 1

/-- The level a clock must reach for an active edge: 1 for `Rising`, 0 for `Falling` (R92, R132). -/
def activeLevel : Edge → Bit
  | .rising => true
  | .falling => false

/-- The fields of a `PRINT` payload; none if it is shorter than 4 bytes; bytes from offset 4 on are
ignored (R108, R109). -/
def parsePrintParameters (payload : List Byte) : Option PrintParameters :=
  match payload with
  | sheets :: margins :: palette :: exposure :: _ =>
    some
      { sheets
        marginBefore := margins.extractLsb' 4 4
        marginAfter := margins.extractLsb' 0 4
        palette
        exposure }
  | _ => none

/-- One pixel of a tile row `d`, row `r`, column `x = 8 * j + c`: the bit `7 - c` of the high plane byte
above the bit `7 - c` of the low plane byte (R110, R252). `d` has 320 bytes where this is called, so
every index is inside it. -/
def tilePixel (d : List Byte) (r x : Nat) : Pixel :=
  let base := 16 * (x / 8) + 2 * r
  let lo := (d.getD base 0).getLsbD (7 - x % 8)
  let hi := (d.getD (base + 1) 0).getLsbD (7 - x % 8)
  BitVec.ofBool hi ++ BitVec.ofBool lo

/-- The completed packet of R190. -/
def packetOf (s : State) : Packet :=
  { command := classify s.cfg s.frame.cmd
    commandByte := s.frame.cmd
    compressed := s.frame.comp != 0x00#8
    payload := s.frame.pbuf
    checksum := s.frame.cks
    checksumOk := s.frame.ckOk }

/-- The numeric codes of the error kinds (R285; symbolic names are normative, D31). -/
def ErrorKind.code : ErrorKind → Nat
  | .transportOverflow => 0
  | .checksumMismatch => 1
  | .payloadOverflow => 2
  | .truncatedRun => 3
  | .malformedTileData => 4
  | .unsupportedCommand => 5
  | .malformedPrintParameters => 6

end Sys2Proof.Machine
end

