-- ==== Sys2Proof/Machine/Flags.lean ====
section
/-! DEFINITION. The status flags and the status byte (spec/10_state.md R34 to R38, spec/30_encoding.md R106). -/

namespace Sys2Proof.Machine

/-- Set `checksum_error` (R34). -/
def setChecksumError (s : State) : State := s.setFlags { s.flags with checksumError := true }

/-- Set `unsupported` (R37). -/
def setUnsupported (s : State) : State := s.setFlags { s.flags with unsupported := true }

/-- Set `packet_error` (R38). -/
def setPacketError (s : State) : State := s.setFlags { s.flags with packetError := true }

/-- Write `busy` (R35, R273). -/
def writeBusy (b : Bit) (s : State) : State := s.setFlags { s.flags with busy := b }

/-- Clear the SessionState (R211). -/
def clearFlags (s : State) : State := s.setFlags Flags.reset

/-- A flag at its position in the status byte. -/
def flagAt (b : Bit) (pos : Fin 8) : Byte := (BitVec.ofBool b).zeroExtend 8 <<< pos.val

/-- The status byte (R106); `paper_out` is the constant 0 (R36). -/
def statusByte (s : State) : Byte :=
  flagAt s.flags.checksumError s.cfg.posChecksumError ||| flagAt s.flags.busy s.cfg.posBusy |||
    flagAt s.flags.packetError s.cfg.posPacketError ||| flagAt false s.cfg.posPaperOut |||
    flagAt s.flags.unsupported s.cfg.posUnsupported

end Sys2Proof.Machine
end

