-- ==== Sys2Proof/Machine/Ops.lean ====
section
/-! DEFINITION. Operations shared by the meanings: the output line, emitting, the bus reset, raising an error, and fetching the next event (spec/10_state.md R27, spec/46_session_controller.md R274, R275, spec/60_exceptions.md R286 to R296). -/

namespace Sys2Proof.Machine

/-- The level on `SerialOut` (R27). -/
def State.so (s : State) : Bit := s.shifter.txSr.msb

/-- `emit ImageReady` (R274): append one event; never blocks, never fails (R276). -/
def emitImage (image : FinishedImage) (params : PrintParameters) (s : State) : State :=
  s.setOut (s.out ++ [.imageReady image params])

/-- `emit ProtocolError` (R275): append one event, with a context drawn afresh (R44, notes/assumptions/4.md). -/
def emitError (kind : ErrorKind) (s : State) : State :=
  (s.setOut (s.out ++ [.protocolError kind s.draws])).setDraws (s.draws + 1)

/-- `BUS_RESET` (R290): the in-flight packet state, the shifter and the backlog take their reset
values; the flags, the image, the trace, `clk_prev` and `sd_cnt` are kept. -/
def resetBus (s : State) : State :=
  ((s.setFrame Frame.reset).setShifter Shifter.reset).setTransport { s.transport with fifo := [] }

/-- The state effect of an error kind (R288, R289, R292 to R296). -/
def errorEffect (kind : ErrorKind) (s : State) : State :=
  match kind with
  | .transportOverflow => resetBus s
  | .checksumMismatch => setChecksumError s
  | .payloadOverflow => setPacketError s
  | .truncatedRun => setPacketError s
  | .malformedTileData => setPacketError s
  | .unsupportedCommand => setUnsupported s
  | .malformedPrintParameters => setPacketError s

/-- `raise K` (R286): the one way an error is taken. The state effect, then one event; nothing is
saved, nothing is entered and nothing returns (R300, R301). -/
def raise (kind : ErrorKind) (s : State) : State := emitError kind (errorEffect kind s)

/-- `RESET` (R320, R46): every field of the spec's `st` takes its reset value; `cfg` is not changed.
The model's own fields are kept (notes/assumptions/7.md). -/
def resetAll (s : State) : State :=
  { State.initial s.cfg with inputs := s.inputs, draws := s.draws, ret := s.ret }

/-- What a fetch answers. -/
inductive Fetched where
  /-- No event is pending: the block waits (R140, R193). -/
  | idle
  /-- The next event is no word of its kind. -/
  | rejected (r : Reject)
  /-- The operation of the next event, and the state with that event taken. -/
  | run (i : Instr) (s : State)
  deriving DecidableEq, Repr

/-- Take the oldest pending event and decode its word (R11, R91). -/
def fetch (s : State) : Fetched :=
  match s.inputs with
  | [] => .idle
  | e :: rest =>
    match decode s.cfg (.event e.kind) e.word with
    | .instr i => .run i (s.setInputs rest)
    | .reject r => .rejected r

/-- The `POLL` event that finds an active edge carrying the bit `v`, with Select asserted. -/
def edgeEvent (c : Cfg) (v : Bit) : Event :=
  { kind := .poll, word := [pollWord (activeLevel c.activeEdge) v c.selectAsserted] }

/-- Set the machine up so that the next `POLL` completes the byte `b`: seven of its bits are in, the
clock is at its inactive level, and the eighth bit's edge is the next event. -/
def armByte (b : Byte) (s : State) : State :=
  ((s.setShifter { s.shifter with rxSr := b >>> 1, rxCnt := 7, txCnt := 7 }).setTransport
      { s.transport with clkPrev := some (!activeLevel s.cfg.activeEdge), fifo := [] }).setInputs
    (edgeEvent s.cfg (b.getLsbD 0) :: s.inputs)

/-- How many operand bytes follow a control byte (R103). -/
def runOperandBytes (b : Byte) : Nat := if b.msb then 1 else runLength (runField b)

/-- Place the bare table word where the next step finds it (notes/assumptions/10.md): an event as the
oldest pending one; a byte as the byte the next `POLL` completes, in the packet state that reads it;
a command byte as the command of a checksum-correct packet whose keep-alive byte completes next; a
control byte, with operand bytes of zeros, as the compressed payload of such a packet. -/
def placeWord (nbits w : Nat) (s : State) : State :=
  match tablePlace nbits w with
  | none => s
  | some (.event kind) => s.setInputs ({ kind, word := tableBytes nbits w } :: s.inputs)
  | some (.byteSlot ps bidx) =>
    armByte (BitVec.ofNat 8 w) (s.setFrame { s.frame with ps, bidx })
  | some .command =>
    armByte 0#8
      (s.setFrame { s.frame with ps := .readKeepAlive, cmd := BitVec.ofNat 8 w, ckOk := true })
  | some .control =>
    let payload := BitVec.ofNat 8 w :: List.replicate (runOperandBytes (BitVec.ofNat 8 w)) 0#8
    armByte 0#8
      (s.setFrame
        { s.frame with
          ps := .readKeepAlive, cmd := s.cfg.cmdData, comp := 0x01#8, ckOk := true,
          len := BitVec.ofNat 16 payload.length, pidx := payload.length, pbuf := payload })

end Sys2Proof.Machine
end

