-- ==== Sys2Proof/Machine/Rle.lean ====
section
/-! DEFINITION. The RLE tile decompressor (spec/44_rle_decompressor.md R230 to R234). -/

namespace Sys2Proof.Machine

/-- The failure `TruncatedRun`: no partial output is returned (R230, R234). -/
def rleFail (w : Rle) : Rle := { w with output := [], truncated := true }

/-- `RLE.REPEAT` (R232): the next input byte, `n + 1` times. -/
def rleRepeatRun (n : BitVec 7) (w : Rle) : Rle :=
  match w.input with
  | [] => rleFail w
  | v :: rest => { w with input := rest, output := w.output ++ List.replicate (runLength n) v }

/-- `RLE.LITERAL` (R233): the next `n + 1` input bytes, unchanged. -/
def rleLiteralRun (n : BitVec 7) (w : Rle) : Rle :=
  if w.input.length < runLength n then rleFail w
  else
    { w with
      input := w.input.drop (runLength n), output := w.output ++ w.input.take (runLength n) }

/-- The run a control byte selects: bit 7 alone decides (R103, R105). -/
def rleRun (c : Byte) (w : Rle) : Rle :=
  if c.msb then rleRepeatRun (runField c) w else rleLiteralRun (runField c) w

/-- The loop of R230. Every turn reads at least one byte, so as many turns as there are input bytes
are enough (notes/assumptions/11.md). -/
def rleLoop : Nat → Rle → Rle
  | 0, w => w
  | turns + 1, w =>
    if w.truncated then w
    else match w.input with
    | [] => w
    | c :: rest => rleLoop turns (rleRun c { w with input := rest })

/-- The decompressor run to its end on an input (R230). -/
def rleFinal (input : List Byte) : Rle :=
  rleLoop input.length { input, output := [], truncated := false }

/-- `DECOMPRESS` (R230): the output, or none for `TruncatedRun`. A pure function. -/
def decompressBytes (input : List Byte) : Option (List Byte) :=
  if (rleFinal input).truncated then none else some (rleFinal input).output

/-- `RLE.REPEAT` on its own: one run of the decompressor's working values (notes/assumptions/5.md). -/
def execRleRepeat (n : BitVec 7) (s : State) : Host.Outcome State Fault Refusal :=
  .next (s.setRet { s.ret with rle := rleRepeatRun n s.ret.rle })

/-- `RLE.LITERAL` on its own. -/
def execRleLiteral (n : BitVec 7) (s : State) : Host.Outcome State Fault Refusal :=
  .next (s.setRet { s.ret with rle := rleLiteralRun n s.ret.rle })

/-- `DECOMPRESS` on its own: its result stands in the working values; nothing else is read or
written (R230). -/
def execDecompress (input : List Byte) (s : State) : Host.Outcome State Fault Refusal :=
  .next (s.setRet { s.ret with rle := rleFinal input })

end Sys2Proof.Machine
end

