-- ==== Sys2Proof/Machine/Image.lean ====
section
/-! DEFINITION. The raster image assembler (spec/45_image_assembler.md R245 to R256). -/

namespace Sys2Proof.Machine

/-- `TILE_ROW_DECODE` (R252): 320 bytes to 8 pixel rows of 160 pixels. -/
def decodeTileRow (d : List Byte) : List PixelRow :=
  (List.range Config.tile).map fun r => (List.range Config.width).map fun x => tilePixel d r x

/-- The tile rows of a payload, in order, each decoded (R249, R251). -/
def decodeTileRows (data : List Byte) (count : Nat) : List PixelRow :=
  (List.range count).flatMap fun t =>
    decodeTileRow ((data.drop (Config.tileRowBytes * t)).take Config.tileRowBytes)

/-- `APPEND` (R249): the size test (R248), then the height test (R250), then the write (R251). -/
def appendData (data : List Byte) (s : State) : State :=
  if data.length % Config.tileRowBytes ≠ 0 then raise .malformedTileData s
  else if s.cfg.maxHeight < s.rows.length + Config.tile * (data.length / Config.tileRowBytes) then
    raise .payloadOverflow s
  else s.setRows (s.rows ++ decodeTileRows data (data.length / Config.tileRowBytes))

/-- `count` blank pixel rows (R253). -/
def blankRows (count : Nat) : List PixelRow :=
  List.replicate count (List.replicate Config.width Config.blankPixel)

/-- The rows of the finished image: an empty buffer stays empty, else the margins are applied
(R253, R255). -/
def finishedRows (c : Cfg) (params : PrintParameters) (rows : List PixelRow) : List PixelRow :=
  match rows with
  | [] => []
  | _ :: _ =>
    blankRows (params.marginBefore.toNat * c.marginUnitRows) ++ rows ++
      blankRows (params.marginAfter.toNat * c.marginUnitRows)

/-- The image `FINALIZE` returns (R253). -/
def finishedImage (c : Cfg) (params : PrintParameters) (rows : List PixelRow) : FinishedImage :=
  { width := Config.width
    depth := Config.bpp
    height := (finishedRows c params rows).length
    rows := finishedRows c params rows
    marginBefore := params.marginBefore
    marginAfter := params.marginAfter }

/-- `FINALIZE` (R253, R254): the image, and the state with the buffer cleared. -/
def finalizeImage (params : PrintParameters) (s : State) : FinishedImage × State :=
  (finishedImage s.cfg params s.rows, s.setRows [])

/-- `APPEND`. -/
def execAppend (data : List Byte) (s : State) : Host.Outcome State Fault Refusal :=
  .next (appendData data s)

/-- `TILE_ROW_DECODE` on its own: a pure function; its rows stand in `ret` (notes/assumptions/5.md). -/
def execTileRowDecode (d : Vector Byte 320) (s : State) : Host.Outcome State Fault Refusal :=
  .next (s.setRet { s.ret with tileRow := decodeTileRow d.toList })

/-- `FINALIZE` on its own: its image stands in `ret` (notes/assumptions/5.md). -/
def execFinalize (params : PrintParameters) (s : State) : Host.Outcome State Fault Refusal :=
  .next ((finalizeImage params s).2.setRet { s.ret with image := some (finalizeImage params s).1 })

end Sys2Proof.Machine
end

