-- ==== Sys2Proof/Machine/Packet.lean ====
section
/-! DEFINITION. Dispatch of a completed packet and the five packet commands (spec/43_packet_dispatch.md R210 to R217). -/

namespace Sys2Proof.Machine

/-- `INITIALIZE` (R211): clear the flags and the ImageBuffer. -/
def initCommand (s : State) : State := (clearFlags s).setRows []

/-- `DATA` (R212). -/
def dataCommand (pkt : Packet) (s : State) : State :=
  if pkt.compressed then
    match decompressBytes pkt.payload with
    | none => raise .truncatedRun s
    | some data => appendData data s
  else appendData pkt.payload s

/-- `PRINT` (R213). -/
def printCommand (pkt : Packet) (s : State) : State :=
  match parsePrintParameters pkt.payload with
  | none => raise .malformedPrintParameters s
  | some params => emitImage (finalizeImage params s).1 params (finalizeImage params s).2

/-- `STATUS` (R214): nothing. -/
def statusCommand (s : State) : State := s

/-- `UNKNOWN` (R215): the flag, then the error. -/
def unknownCommand (s : State) : State := raise .unsupportedCommand (setUnsupported s)

/-- `DISPATCH` (R210): a packet whose checksum did not match has no further effect. -/
def dispatchPacket (pkt : Packet) (s : State) : State :=
  if pkt.checksumOk then
    match pkt.command with
    | .init => initCommand s
    | .data => dataCommand pkt s
    | .print => printCommand pkt s
    | .status => statusCommand s
    | .unknown => unknownCommand s
  else s

/-- `INITIALIZE`. -/
def execCmdInit (s : State) : Host.Outcome State Fault Refusal := .next (initCommand s)

/-- `DATA`, on the completed packet (R190; notes/assumptions/6.md). -/
def execCmdData (s : State) : Host.Outcome State Fault Refusal := .next (dataCommand (packetOf s) s)

/-- `PRINT`, on the completed packet. -/
def execCmdPrint (s : State) : Host.Outcome State Fault Refusal :=
  .next (printCommand (packetOf s) s)

/-- `STATUS`. -/
def execCmdStatus (s : State) : Host.Outcome State Fault Refusal := .next (statusCommand s)

/-- `UNKNOWN`: the command byte would be the event's context, which the spec leaves open (R289; notes/assumptions/4.md). -/
def execCmdUnknown (_commandByte : Byte) (s : State) : Host.Outcome State Fault Refusal :=
  .next (unknownCommand s)

/-- `DISPATCH`, of the completed packet. -/
def execDispatch (s : State) : Host.Outcome State Fault Refusal :=
  .next (dispatchPacket (packetOf s) s)

end Sys2Proof.Machine
end

