-- ==== Sys2Proof/Machine/Bytes.lean ====
section
/-! DEFINITION. The packet frame-and-checksum validator: `BYTE_IN` and the twelve byte handlers (spec/42_packet_fsm.md R175 to R194). -/

namespace Sys2Proof.Machine

/-- Enter a packet state. -/
def goto (ps : PacketState) (s : State) : State := s.setFrame { s.frame with ps }

/-- `IDLE.SYNC1` (R177). -/
def idleSync1 (s : State) : State := goto .sync1 s

/-- `IDLE.SKIP` (R178): nothing. -/
def idleSkip (_b : Byte) (s : State) : State := s

/-- `SYNC1.SYNC2` (R179). -/
def sync1Sync2 (s : State) : State := goto .sync2 s

/-- `SYNC1.RESYNC` (R180): the byte is discarded whatever it is. -/
def sync1Resync (_b : Byte) (s : State) : State := goto .idle s

/-- `SYNC2.CMD` (R181): the running sum starts here. -/
def sync2Cmd (b : Byte) (s : State) : State :=
  s.setFrame { s.frame with cmd := b, sum := b.zeroExtend 16, ps := .readCompression }

/-- `RDCOMP` (R182): the raw byte is kept and summed. -/
def rdComp (b : Byte) (s : State) : State :=
  s.setFrame
    { s.frame with comp := b, sum := addByte s.frame.sum b, bidx := false, ps := .readLength }

/-- `RDLEN.LO` (R183). -/
def rdLenLo (b : Byte) (s : State) : State :=
  s.setFrame
    { s.frame with
      len := setLowByte s.frame.len b, sum := addByte s.frame.sum b, bidx := true }

/-- `RDLEN.HI` (R184): straight to the checksum if the length is 0. -/
def rdLenHi (b : Byte) (s : State) : State :=
  s.setFrame
    { s.frame with
      len := setHighByte s.frame.len b
      sum := addByte s.frame.sum b
      bidx := false
      pidx := 0
      pbuf := []
      ps := if setHighByte s.frame.len b = 0 then .readChecksum else .readPayload }

/-- `RDPAY` (R185): append; the last byte of the payload leads on to the checksum. -/
def rdPay (b : Byte) (s : State) : State :=
  s.setFrame
    { s.frame with
      pbuf := s.frame.pbuf ++ [b]
      pidx := s.frame.pidx + 1
      sum := addByte s.frame.sum b
      bidx := if s.frame.pidx + 1 = s.frame.len.toNat then false else s.frame.bidx
      ps := if s.frame.pidx + 1 = s.frame.len.toNat then .readChecksum else s.frame.ps }

/-- `RDCKS.LO` (R186): not summed. -/
def rdCksLo (b : Byte) (s : State) : State :=
  s.setFrame { s.frame with cks := setLowByte s.frame.cks b, bidx := true }

/-- `RDCKS.HI`, first part (R189): the received checksum and the comparison of all 16 bits. -/
def compareChecksum (b : Byte) (s : State) : State :=
  s.setFrame
    { s.frame with
      cks := setHighByte s.frame.cks b
      bidx := false
      ckOk := setHighByte s.frame.cks b == s.frame.sum }

/-- `RDCKS.HI`, second part (R189): a mismatch sets the flag and raises, and processing continues. -/
def recordMismatch (s : State) : State :=
  if s.frame.ckOk then s else raise .checksumMismatch (setChecksumError s)

/-- Leave a byte pending for the next slot and enter a packet state (R189, R191). -/
def replyThen (reply : Byte) (ps : PacketState) (s : State) : State :=
  goto ps (s.setShifter { s.shifter with txNext := reply })

/-- `RDCKS.HI` (R189): the keep-alive byte goes out in the next slot. -/
def rdCksHi (b : Byte) (s : State) : State :=
  replyThen s.cfg.keepAliveByte .readKeepAlive (recordMismatch (compareChecksum b s))

/-- `RDKA` (R191): the byte is ignored; dispatch, then the status byte, then `Idle`. -/
def rdKa (_b : Byte) (s : State) : State :=
  replyThen (statusByte (dispatchPacket (packetOf s) s)) .idle (dispatchPacket (packetOf s) s)

/-- The handler of a level-B row. -/
def runByteRow (row : ByteRow) (s : State) : State :=
  match row with
  | .idleSync1 => idleSync1 s
  | .idleSkip b => idleSkip b s
  | .sync1Sync2 => sync1Sync2 s
  | .sync1Resync b => sync1Resync b s
  | .sync2Cmd b => sync2Cmd b s
  | .rdComp b => rdComp b s
  | .rdLenLo b => rdLenLo b s
  | .rdLenHi b => rdLenHi b s
  | .rdPay b => rdPay b s
  | .rdCksLo b => rdCksLo b s
  | .rdCksHi b => rdCksHi b s
  | .rdKa b => rdKa b s

/-- `BYTE_IN` (R176): the one handler that `ps`, `bidx` and the byte select, run to completion. -/
def byteIn (b : Byte) (s : State) : State := runByteRow (decodeByte s.frame.ps s.frame.bidx b) s

/-- `IDLE.SYNC1`. -/
def execIdleSync1 (s : State) : Host.Outcome State Fault Refusal := .next (idleSync1 s)

/-- `IDLE.SKIP`. -/
def execIdleSkip (b : Byte) (s : State) : Host.Outcome State Fault Refusal := .next (idleSkip b s)

/-- `SYNC1.SYNC2`. -/
def execSync1Sync2 (s : State) : Host.Outcome State Fault Refusal := .next (sync1Sync2 s)

/-- `SYNC1.RESYNC`. -/
def execSync1Resync (b : Byte) (s : State) : Host.Outcome State Fault Refusal :=
  .next (sync1Resync b s)

/-- `SYNC2.CMD`. -/
def execSync2Cmd (b : Byte) (s : State) : Host.Outcome State Fault Refusal := .next (sync2Cmd b s)

/-- `RDCOMP`. -/
def execRdComp (b : Byte) (s : State) : Host.Outcome State Fault Refusal := .next (rdComp b s)

/-- `RDLEN.LO`. -/
def execRdLenLo (b : Byte) (s : State) : Host.Outcome State Fault Refusal := .next (rdLenLo b s)

/-- `RDLEN.HI`. -/
def execRdLenHi (b : Byte) (s : State) : Host.Outcome State Fault Refusal := .next (rdLenHi b s)

/-- `RDPAY`. -/
def execRdPay (b : Byte) (s : State) : Host.Outcome State Fault Refusal := .next (rdPay b s)

/-- `RDCKS.LO`. -/
def execRdCksLo (b : Byte) (s : State) : Host.Outcome State Fault Refusal := .next (rdCksLo b s)

/-- `RDCKS.HI`. -/
def execRdCksHi (b : Byte) (s : State) : Host.Outcome State Fault Refusal := .next (rdCksHi b s)

/-- `RDKA`. -/
def execRdKa (b : Byte) (s : State) : Host.Outcome State Fault Refusal := .next (rdKa b s)

/-- `BYTE_IN`. -/
def execByteIn (b : Byte) (s : State) : Host.Outcome State Fault Refusal := .next (byteIn b s)

end Sys2Proof.Machine
end

