-- ==== Sys2Proof/Machine/Shift.lean ====
section
/-! DEFINITION. The byte shifter (spec/41_byte_shifter.md R160 to R166). -/

namespace Sys2Proof.Machine

/-- `RX_BIT` (R160): the new bit enters at bit 0; the eighth hands the byte to `BYTE_IN` (R163). -/
def rxBit (v : Bit) (s : State) : State :=
  if s.shifter.rxCnt = 7 then
    byteIn (shiftIn s.shifter.rxSr v)
      (s.setShifter { s.shifter with rxSr := shiftIn s.shifter.rxSr v, rxCnt := 0 })
  else
    s.setShifter
      { s.shifter with rxSr := shiftIn s.shifter.rxSr v, rxCnt := s.shifter.rxCnt + 1 }

/-- `TX_BIT` (R161): the eighth takes the pending byte and leaves the filler pending (R164). -/
def txBit (s : State) : State :=
  if s.shifter.txCnt = 7 then
    s.setShifter
      { s.shifter with txCnt := 0, txSr := s.shifter.txNext, txNext := Config.txFillByte }
  else
    s.setShifter
      { s.shifter with txCnt := s.shifter.txCnt + 1, txSr := shiftIn s.shifter.txSr false }

/-- `SHIFT_EDGE` (R162): inbound first. -/
def shiftEdge (v : Bit) (s : State) : State := txBit (rxBit v s)

/-- `RX_BIT`. -/
def execRxBit (v : Bit) (s : State) : Host.Outcome State Fault Refusal := .next (rxBit v s)

/-- `TX_BIT`. -/
def execTxBit (s : State) : Host.Outcome State Fault Refusal := .next (txBit s)

/-- `SHIFT_EDGE`. -/
def execShiftEdge (v : Bit) (s : State) : Host.Outcome State Fault Refusal := .next (shiftEdge v s)

end Sys2Proof.Machine
end

