-- ==== Sys2Proof/Machine/Wire.lean ====
section
/-! DEFINITION. The clocked bit transport and the wire events (spec/40_bit_transport.md R130 to R141, spec/46_session_controller.md R273, spec/70_reset_and_hazards.md R320). -/

namespace Sys2Proof.Machine

/-- Write `sd_cnt`. -/
def writeSdCnt (n : Nat) (s : State) : State := s.setTransport { s.transport with sdCnt := n }

/-- `SELECT_MONITOR` (R131): the bus reset fires once, in the `POLL` that brings the count to the
threshold plus one. -/
def selectMonitor (sd : Bit) (s : State) : State :=
  if sd = s.cfg.selectAsserted then writeSdCnt 0 s
  else if s.transport.sdCnt ≤ s.cfg.sdIdleThreshold then
    if s.transport.sdCnt + 1 = s.cfg.sdIdleThreshold + 1 then
      resetBus (writeSdCnt (s.transport.sdCnt + 1) s)
    else writeSdCnt (s.transport.sdCnt + 1) s
  else s

/-- An active edge: a change of the sampled level, from one `POLL` to the next, onto the active
level; the first `POLL` after `RESET` finds none (R132). -/
def isActiveEdge (clk : Bit) (s : State) : Bool :=
  match s.transport.clkPrev with
  | none => false
  | some b => b != clk && clk == activeLevel s.cfg.activeEdge

/-- `EDGE_DETECT`'s write (R132). -/
def recordClock (clk : Bit) (s : State) : State :=
  s.setTransport { s.transport with clkPrev := some clk }

/-- `SAMPLE` (R133): a full backlog is `TransportOverflow`, and the bit is not stored (R135). -/
def sampleBit (si : Bit) (s : State) : State :=
  if s.cfg.backlogDepth ≤ s.transport.fifo.length then raise .transportOverflow s
  else
    s.setTransport
      { s.transport with
        fifo := s.transport.fifo ++ [{ value := si, edge := s.cfg.activeEdge }] }

/-- The loop of R136, for a number of turns. -/
def drainLoop : Nat → State → State
  | 0, s => s
  | turns + 1, s =>
    match s.transport.fifo with
    | [] => s
    | b :: rest =>
      drainLoop turns (shiftEdge b.value (s.setTransport { s.transport with fifo := rest }))

/-- `DRAIN` (R136). No turn pushes a bit, so as many turns as there are queued bits empty the backlog
(notes/assumptions/11.md). -/
def drainBacklog (s : State) : State := drainLoop s.transport.fifo.length s

/-- `POLL` (R130): select monitor, edge detection, and on an active edge sampling and draining. -/
def pollLines (clk si sd : Bit) (s : State) : State :=
  let s1 := selectMonitor sd s
  if isActiveEdge clk s1 then drainBacklog (sampleBit si (recordClock clk s1))
  else recordClock clk s1

/-- `RESET`. -/
def execReset (s : State) : Host.Outcome State Fault Refusal := .next (resetAll s)

/-- `POLL`. -/
def execPoll (clk si sd : Bit) (s : State) : Host.Outcome State Fault Refusal :=
  .next (pollLines clk si sd s)

/-- `HOST_SET_BUSY` (R273). -/
def execHostSetBusy (b : Bit) (s : State) : Host.Outcome State Fault Refusal :=
  .next (writeBusy b s)

/-- `SELECT_MONITOR`. -/
def execSelectMonitor (sd : Bit) (s : State) : Host.Outcome State Fault Refusal :=
  .next (selectMonitor sd s)

/-- `EDGE_DETECT` on its own: the edge it returns stands in `ret` (notes/assumptions/5.md). -/
def execEdgeDetect (clk : Bit) (s : State) : Host.Outcome State Fault Refusal :=
  .next ((recordClock clk s).setRet { s.ret with edge := isActiveEdge clk s })

/-- `SAMPLE`. -/
def execSample (si : Bit) (s : State) : Host.Outcome State Fault Refusal := .next (sampleBit si s)

/-- `DRAIN`. -/
def execDrain (s : State) : Host.Outcome State Fault Refusal := .next (drainBacklog s)

end Sys2Proof.Machine
end

