-- ==== Sys2Proof/Machine/Session.lean ====
section
/-! DEFINITION. The session controller's outward events and the bus reset as operations of their own (spec/46_session_controller.md R274, R275, spec/60_exceptions.md R290). -/

namespace Sys2Proof.Machine

/-- `EMIT_IMAGE_READY` (R274). -/
def execEmitImageReady (image : FinishedImage) (params : PrintParameters) (s : State) :
    Host.Outcome State Fault Refusal :=
  .next (emitImage image params s)

/-- `EMIT_PROTOCOL_ERROR` (R275). -/
def execEmitProtocolError (kind : ErrorKind) (s : State) : Host.Outcome State Fault Refusal :=
  .next (emitError kind s)

/-- `BUS_RESET` (R290). -/
def execBusReset (s : State) : Host.Outcome State Fault Refusal := .next (resetBus s)

end Sys2Proof.Machine
end

