-- ==== Sys2Proof/Machine/Dispatch.lean ====
section
/-! DEFINITION. What each operation does: one arm per constructor of `Instr`. -/

namespace Sys2Proof.Machine

/-- The meaning of an operation. -/
def exec (i : Instr) (s : State) : Host.Outcome State Fault Refusal :=
  match i with
  | .reset => Sys2Proof.Machine.execReset s
  | .poll clk si sd => Sys2Proof.Machine.execPoll clk si sd s
  | .hostSetBusy b => Sys2Proof.Machine.execHostSetBusy b s
  | .idleSync1 => Sys2Proof.Machine.execIdleSync1 s
  | .idleSkip b => Sys2Proof.Machine.execIdleSkip b s
  | .sync1Sync2 => Sys2Proof.Machine.execSync1Sync2 s
  | .sync1Resync b => Sys2Proof.Machine.execSync1Resync b s
  | .sync2Cmd b => Sys2Proof.Machine.execSync2Cmd b s
  | .rdComp b => Sys2Proof.Machine.execRdComp b s
  | .rdLenLo b => Sys2Proof.Machine.execRdLenLo b s
  | .rdLenHi b => Sys2Proof.Machine.execRdLenHi b s
  | .rdPay b => Sys2Proof.Machine.execRdPay b s
  | .rdCksLo b => Sys2Proof.Machine.execRdCksLo b s
  | .rdCksHi b => Sys2Proof.Machine.execRdCksHi b s
  | .rdKa b => Sys2Proof.Machine.execRdKa b s
  | .cmdInit => Sys2Proof.Machine.execCmdInit s
  | .cmdPrint => Sys2Proof.Machine.execCmdPrint s
  | .cmdData => Sys2Proof.Machine.execCmdData s
  | .cmdStatus => Sys2Proof.Machine.execCmdStatus s
  | .cmdUnknown commandByte => Sys2Proof.Machine.execCmdUnknown commandByte s
  | .rleRepeat n => Sys2Proof.Machine.execRleRepeat n s
  | .rleLiteral n => Sys2Proof.Machine.execRleLiteral n s
  | .selectMonitor sd => Sys2Proof.Machine.execSelectMonitor sd s
  | .edgeDetect clk => Sys2Proof.Machine.execEdgeDetect clk s
  | .sample si => Sys2Proof.Machine.execSample si s
  | .drain => Sys2Proof.Machine.execDrain s
  | .shiftEdge v => Sys2Proof.Machine.execShiftEdge v s
  | .rxBit v => Sys2Proof.Machine.execRxBit v s
  | .txBit => Sys2Proof.Machine.execTxBit s
  | .byteIn b => Sys2Proof.Machine.execByteIn b s
  | .dispatch => Sys2Proof.Machine.execDispatch s
  | .decompress input => Sys2Proof.Machine.execDecompress input s
  | .append data => Sys2Proof.Machine.execAppend data s
  | .tileRowDecode d => Sys2Proof.Machine.execTileRowDecode d s
  | .finalize params => Sys2Proof.Machine.execFinalize params s
  | .emitImageReady image params => Sys2Proof.Machine.execEmitImageReady image params s
  | .emitProtocolError kind => Sys2Proof.Machine.execEmitProtocolError kind s
  | .busReset => Sys2Proof.Machine.execBusReset s

end Sys2Proof.Machine
end

