-- ==== Sys2Proof/Machine/Step.lean ====
section
/-! DEFINITION. One step: the oldest pending event, decoded and run to completion (spec/00_scope.md R11, spec/20_memory.md R70). -/

namespace Sys2Proof.Machine

/-- One step of the machine (R11). A configuration outside R7's constraints is refused
(notes/assumptions/3.md); with no event pending the state is held (R140, R193, notes/assumptions/1.md). -/
def step (s : State) : Host.Outcome State Fault Refusal :=
  if s.cfg.wf then
    match fetch s with
    | .idle => .next s
    | .rejected r => .refused (.badEvent r)
    | .run i s' => exec i s'
  else .refused .badConfiguration

/-- The state with a bare table word placed where the next step finds it (notes/assumptions/10.md). -/
def State.withFetchWord (s : State) (nbits w : Nat) : State := placeWord nbits w s

end Sys2Proof.Machine
end

