-- ==== Sys2Proof/Safety.lean ====
section
/-! DEFINITION. The terms claims use: runs of operations, the frame a master sends, complete RLE runs, and the invariants of the machine (spec/10_state.md R28, R42, spec/30_encoding.md R94, spec/40_bit_transport.md R131, R132, R136, spec/41_byte_shifter.md R160, spec/42_packet_fsm.md R175, R187, R188, spec/44_rle_decompressor.md R236). -/

namespace Sys2Proof.Machine

/-- Operations carried out one after the other, stopping at the first that stops. -/
def execAll : List Instr → State → Host.Outcome State Fault Refusal
  | [], s => .next s
  | i :: rest, s =>
    match exec i s with
    | .next t => execAll rest t
    | .fault r => .fault r
    | .refused r => .refused r

/-- `t` is `u` with exactly one error event of a kind appended to the trace; the event's context is
free (R275). -/
def PlusError (kind : ErrorKind) (u t : State) : Prop :=
  (∃ context, t.out = u.out ++ [.protocolError kind context]) ∧
    { t with out := u.out, draws := u.draws } = u

/-- The bits of a byte in the order of the wire, most significant first (R62). -/
def wireBits (b : Byte) : List Bit :=
  [b.getLsbD 7, b.getLsbD 6, b.getLsbD 5, b.getLsbD 4, b.getLsbD 3, b.getLsbD 2, b.getLsbD 1,
    b.getLsbD 0]

/-- The handler the table of R98 names for a packet state, a sub-index and a byte, its fixed values
written out; a statement compares `BYTE_IN` with it. -/
def byteHandler (ps : PacketState) (bidx : Bit) (b : Byte) : Instr :=
  match ps with
  | .idle => if b = 0x88#8 then .idleSync1 else .idleSkip b
  | .sync1 => if b = 0x33#8 then .sync1Sync2 else .sync1Resync b
  | .sync2 => .sync2Cmd b
  | .readCompression => .rdComp b
  | .readLength => if bidx = false then .rdLenLo b else .rdLenHi b
  | .readPayload => .rdPay b
  | .readChecksum => if bidx = false then .rdCksLo b else .rdCksHi b
  | .readKeepAlive => .rdKa b

/-- The low byte of a 16-bit field (R63). -/
def lowByte (h : Half) : Byte := h.extractLsb' 0 8

/-- The high byte of a 16-bit field (R63). -/
def highByte (h : Half) : Byte := h.extractLsb' 8 8

/-- The sum of bytes, each zero-extended, modulo 65536 (R187). -/
def byteSum (bytes : List Byte) : Half := (bytes.map fun b => b.zeroExtend 16).sum

/-- The checksum a correct frame carries (R187). -/
def frameSum (cmd comp : Byte) (payload : List Byte) : Half :=
  byteSum
    ([cmd, comp, lowByte (BitVec.ofNat 16 payload.length),
      highByte (BitVec.ofNat 16 payload.length)] ++ payload)

/-- The bytes of a frame from the first sync byte to the second checksum byte, carrying the checksum
`cks` (R94). -/
def frameBytes (cmd comp : Byte) (payload : List Byte) (cks : Half) : List Byte :=
  [Config.sync1, Config.sync2, cmd, comp, lowByte (BitVec.ofNat 16 payload.length),
    highByte (BitVec.ofNat 16 payload.length)] ++ payload ++ [lowByte cks, highByte cks]

/-- A complete RLE run (R103, R236). -/
inductive Run where
  | repeats (n : BitVec 7) (v : Byte)
  | literal (first : Byte) (rest : List Byte)
  deriving DecidableEq, Repr

/-- A literal run holds 1 to 128 bytes (R104). -/
def Run.ok : Run → Prop
  | .repeats _ _ => True
  | .literal _ rest => rest.length < 128

/-- The bytes of a run in the stream (R103). -/
def Run.bytes : Run → List Byte
  | .repeats n v => [1#1 ++ n, v]
  | .literal first rest => BitVec.ofNat 8 rest.length :: first :: rest

/-- The output of a run (R103). -/
def Run.output : Run → List Byte
  | .repeats n v => List.replicate (n.toNat + 1) v
  | .literal first rest => first :: rest

/-- Between steps the backlog is empty, the two bit counters agree and the idle count is in its
range (R136, R28, R23). -/
def LinkInv (s : State) : Prop :=
  s.transport.fifo = [] ∧ s.shifter.rxCnt = s.shifter.txCnt ∧
    s.transport.sdCnt ≤ s.cfg.sdIdleThreshold + 1

/-- The bounds of R188, and the comparison result while the keep-alive byte is awaited (R189). -/
def FrameInv (s : State) : Prop :=
  s.frame.pidx = s.frame.pbuf.length ∧ s.frame.pidx ≤ 65535 ∧
    (s.frame.ps = .readPayload → s.frame.pidx < s.frame.len.toNat) ∧
    (s.frame.ps = .readChecksum ∨ s.frame.ps = .readKeepAlive →
      s.frame.pidx = s.frame.len.toNat) ∧
    (s.frame.ps = .readKeepAlive → s.frame.ckOk = (s.frame.cks == s.frame.sum))

/-- The running sum holds exactly the summed bytes read so far (R187). -/
def SumInv (s : State) : Prop :=
  match s.frame.ps with
  | .readCompression => s.frame.sum = byteSum [s.frame.cmd]
  | .readLength =>
    s.frame.sum =
      byteSum ([s.frame.cmd, s.frame.comp] ++ if s.frame.bidx then [lowByte s.frame.len] else [])
  | .readPayload =>
    s.frame.sum =
      byteSum
        ([s.frame.cmd, s.frame.comp, lowByte s.frame.len, highByte s.frame.len] ++ s.frame.pbuf)
  | .readChecksum =>
    s.frame.sum =
      byteSum
        ([s.frame.cmd, s.frame.comp, lowByte s.frame.len, highByte s.frame.len] ++ s.frame.pbuf)
  | .readKeepAlive =>
    s.frame.sum =
      byteSum
        ([s.frame.cmd, s.frame.comp, lowByte s.frame.len, highByte s.frame.len] ++ s.frame.pbuf)
  | .idle => True
  | .sync1 => True
  | .sync2 => True

/-- The ImageBuffer never passes its maximum, holds whole tile rows, and every row has 160 pixels
(R42, R41). -/
def ImageInv (s : State) : Prop :=
  s.rows.length ≤ s.cfg.maxHeight ∧ s.rows.length % 8 = 0 ∧ ∀ r ∈ s.rows, r.length = 160

/-- A node of the state graph of R175: the packet state, and the sub-index where it has one. -/
def graphNode (f : Frame) : PacketState × Bit :=
  match f.ps with
  | .readLength => (.readLength, f.bidx)
  | .readChecksum => (.readChecksum, f.bidx)
  | .idle => (.idle, false)
  | .sync1 => (.sync1, false)
  | .sync2 => (.sync2, false)
  | .readCompression => (.readCompression, false)
  | .readPayload => (.readPayload, false)
  | .readKeepAlive => (.readKeepAlive, false)

/-- The edge of the state graph a byte takes: the table of R175. -/
def graphStep (f : Frame) (b : Byte) : PacketState × Bit :=
  match f.ps with
  | .idle => if b = 0x88#8 then (.sync1, false) else (.idle, false)
  | .sync1 => if b = 0x33#8 then (.sync2, false) else (.idle, false)
  | .sync2 => (.readCompression, false)
  | .readCompression => (.readLength, false)
  | .readLength =>
    if f.bidx = false then (.readLength, true)
    else if b ++ lowByte f.len = 0#16 then (.readChecksum, false)
    else (.readPayload, false)
  | .readPayload =>
    if f.pidx + 1 = f.len.toNat then (.readChecksum, false) else (.readPayload, false)
  | .readChecksum => if f.bidx = false then (.readChecksum, true) else (.readKeepAlive, false)
  | .readKeepAlive => (.idle, false)

/-- No clock level of a list is an active edge, from a recorded level on (R132). -/
def NoActiveEdge (edge : Edge) : Option Bit → List Bit → Prop
  | _, [] => True
  | prev, clk :: rest =>
    ¬(prev = some (!clk) ∧ (clk = true ↔ edge = .rising)) ∧ NoActiveEdge edge (some clk) rest

/-- No level of Select in a list makes the select monitor fire the bus reset, from an idle count on: no
run of deasserted polls brings the count from the threshold to the threshold plus one (R131). Asserted
polls restart the count, and a count beyond the threshold has fired already, so both may go on for
ever. -/
def NoBusReset (asserted : Bit) (threshold : Nat) : Nat → List Bit → Prop
  | _, [] => True
  | count, sd :: rest =>
    if sd = asserted then NoBusReset asserted threshold 0 rest
    else count ≠ threshold ∧ NoBusReset asserted threshold (count + 1) rest

/-- The oldest pending event of `s` is the operation `i` (R11, R91). -/
def NextEvent (s : State) (i : Instr) : Prop :=
  ∃ e rest, s.inputs = e :: rest ∧ decode s.cfg (.event e.kind) e.word = .instr i

/-- A `POLL` with this level of the clock finds an active edge (R132). -/
def FindsEdge (s : State) (clk : Bit) : Prop :=
  s.transport.clkPrev = some (!clk) ∧ (clk = true ↔ s.cfg.activeEdge = .rising)

/-- A `POLL` with this level of Select fires the bus reset (R131). -/
def FiresBusReset (s : State) (sd : Bit) : Prop :=
  sd ≠ s.cfg.selectAsserted ∧ s.transport.sdCnt = s.cfg.sdIdleThreshold

/-- The next event forces the packet state to `Idle`: a `RESET`, or a `POLL` that fires the bus reset
(R175, R290, R320). -/
def ForcesIdle (s : State) : Prop :=
  NextEvent s .reset ∨ ∃ clk si sd, NextEvent s (.poll clk si sd) ∧ FiresBusReset s sd

/-- The next event completes the byte `b`: it is a `POLL` that fires no bus reset and finds an active
edge when seven bits of the byte are in, and `b` is those seven bits and the one sampled (R160, R163,
R175's "on" column). -/
def CompletesByte (s : State) (b : Byte) : Prop :=
  ∃ clk si sd, NextEvent s (.poll clk si sd) ∧ FindsEdge s clk ∧ ¬FiresBusReset s sd ∧
    s.shifter.rxCnt = 7 ∧ b = s.shifter.rxSr.extractLsb' 0 7 ++ BitVec.ofBool si

end Sys2Proof.Machine
end

