-- ==== Sys2Proof/Certificates/Slice0/Obligations.lean ====
section
/-! DEFINITION. The statements for the provers, from the numbered rules of the spec. -/

open Sys2Proof Sys2Proof.Machine

/-! ## Wire events and the bit transport -/

/-- R320, R46: `RESET` gives every field of the spec's `st` its reset value and leaves `cfg` alone;
`SerialOut` is then low. (The values other than `Idle` are the spec's decision D32.) -/
def Obligations.ResetGivesEveryFieldItsResetValue : Prop :=
  ∀ s : State, ∃ t, exec .reset s = .next t ∧ t.cfg = s.cfg ∧
    t.transport = { clkPrev := none, sdCnt := 0, fifo := [] } ∧
    t.shifter = { rxSr := 0x00#8, rxCnt := 0, txSr := 0x00#8, txCnt := 0, txNext := 0x00#8 } ∧
    t.frame =
      { ps := .idle, bidx := false, pidx := 0, cmd := 0x00#8, comp := 0x00#8, len := 0x0000#16,
        sum := 0x0000#16, cks := 0x0000#16, ckOk := false, pbuf := [] } ∧
    t.flags = { checksumError := false, busy := false, unsupported := false, packetError := false } ∧
    t.rows = [] ∧ t.out = [] ∧ t.so = false ∧
    (∀ si, exec (.poll true si t.cfg.selectAsserted) t =
      .next { t with transport := { t.transport with clkPrev := some true } })

/-- R273, R35: `HOST_SET_BUSY` writes `busy` and nothing else, so a status byte already loaded is not
altered; `INITIALIZE` and `RESET` clear the flag whatever the host last wrote. -/
def Obligations.HostSetBusyWritesOnlyBusy : Prop :=
  ∀ (s : State) (b : Bit),
    exec (.hostSetBusy b) s = .next { s with flags := { s.flags with busy := b } } ∧
    (∃ t, execAll [.hostSetBusy b, .cmdInit] s = .next t ∧ t.flags.busy = false) ∧
    ∃ t, execAll [.hostSetBusy b, .reset] s = .next t ∧ t.flags.busy = false

/-- R131: the select monitor counts consecutive deasserted polls, fires the bus reset once, in the
poll that brings the count to the threshold plus one, and saturates there. -/
def Obligations.SelectMonitorCountsAndFiresOnce : Prop :=
  ∀ (s : State) (sd : Bit), ∃ t, exec (.selectMonitor sd) s = .next t ∧
    (sd = s.cfg.selectAsserted → t = { s with transport := { s.transport with sdCnt := 0 } }) ∧
    (sd ≠ s.cfg.selectAsserted → s.transport.sdCnt < s.cfg.sdIdleThreshold →
      t = { s with transport := { s.transport with sdCnt := s.transport.sdCnt + 1 } }) ∧
    (sd ≠ s.cfg.selectAsserted → s.transport.sdCnt = s.cfg.sdIdleThreshold →
      exec .busReset
        { s with transport := { s.transport with sdCnt := s.cfg.sdIdleThreshold + 1 } } = .next t) ∧
    (sd ≠ s.cfg.selectAsserted → s.cfg.sdIdleThreshold < s.transport.sdCnt → t = s)

/-- R290: the bus reset clears the in-flight packet state, the shifter and the backlog, and keeps the
flags, the image, the trace, `clk_prev` and `sd_cnt`; no event, no flag. -/
def Obligations.BusResetClearsInFlightState : Prop :=
  ∀ s : State, exec .busReset s = .next
    { s with
      frame :=
        { ps := .idle, bidx := false, pidx := 0, cmd := 0x00#8, comp := 0x00#8, len := 0x0000#16,
          sum := 0x0000#16, cks := 0x0000#16, ckOk := false, pbuf := [] }
      shifter := { rxSr := 0x00#8, rxCnt := 0, txSr := 0x00#8, txCnt := 0, txNext := 0x00#8 }
      transport := { s.transport with fifo := [] } }

/-- Section 3 of 40_bit_transport.md: edge detection records the level and finds an edge exactly on a
change onto the active level. Where the answer is kept when the operation runs on its own is the
model's choice (notes/assumptions/5.md). -/
def Obligations.EdgeDetectFindsChangesOntoActiveLevel : Prop :=
  ∀ (s : State) (clk : Bit), ∃ t, exec (.edgeDetect clk) s = .next t ∧
    t = { s with transport := { s.transport with clkPrev := some clk }, ret := t.ret } ∧
    t.ret = { s.ret with edge := t.ret.edge } ∧
    (t.ret.edge = true ↔
      s.transport.clkPrev = some (!clk) ∧ (clk = true ↔ s.cfg.activeEdge = .rising))

/-- R130, R132: `POLL` runs the select monitor, then edge detection on what that left, which always
records the level, and only on an active edge samples and drains; it completes in every state. -/
def Obligations.PollRunsItsPartsInOrder : Prop :=
  ∀ (s : State) (clk si sd : Bit), ∃ m t,
    exec (.selectMonitor sd) s = .next m ∧ exec (.poll clk si sd) s = .next t ∧
    (m.transport.clkPrev = some (!clk) ∧ (clk = true ↔ m.cfg.activeEdge = .rising) →
      execAll [.sample si, .drain]
        { m with transport := { m.transport with clkPrev := some clk } } = .next t) ∧
    (¬(m.transport.clkPrev = some (!clk) ∧ (clk = true ↔ m.cfg.activeEdge = .rising)) →
      t = { m with transport := { m.transport with clkPrev := some clk } })

/-- R140: any number of polls without an active edge changes nothing but `clk_prev` and `sd_cnt`: a
stalled master stalls the machine. The one limit is R131's: no run of deasserted polls in the list
reaches the threshold plus one, so that no bus reset fires; polls with Select asserted, and deasserted
ones after the reset has fired, are without number. -/
def Obligations.PollsWithoutAnEdgeHoldEverything : Prop :=
  ∀ (s : State) (polls : List (Bit × Bit × Bit)),
    NoActiveEdge s.cfg.activeEdge s.transport.clkPrev (polls.map fun p => p.1) →
    NoBusReset s.cfg.selectAsserted s.cfg.sdIdleThreshold s.transport.sdCnt
      (polls.map fun p => p.2.2) →
    ∃ t, execAll (polls.map fun p => .poll p.1 p.2.1 p.2.2) s = .next t ∧
      t = { s with
            transport :=
              { s.transport with clkPrev := t.transport.clkPrev, sdCnt := t.transport.sdCnt } }

/-- R133, R135, R296: with room in the backlog the sampled bit and its edge go to the tail; on a full
backlog the bit is lost, everything the bus reset does happens, no flag is set, one
`TransportOverflow` event is emitted, and `DRAIN` then has nothing to do. -/
def Obligations.SampleQueuesTheBitOrOverflows : Prop :=
  ∀ (s : State) (si : Bit),
    (s.transport.fifo.length < s.cfg.backlogDepth → exec (.sample si) s = .next
      { s with
        transport :=
          { s.transport with
            fifo := s.transport.fifo ++ [{ value := si, edge := s.cfg.activeEdge }] } }) ∧
    (s.cfg.backlogDepth ≤ s.transport.fifo.length →
      ∃ u t, exec .busReset s = .next u ∧ exec (.sample si) s = .next t ∧
        PlusError .transportOverflow u t ∧ execAll [.drain] t = .next t)

/-- R136: draining hands every queued bit to the shifter, oldest first, and leaves the backlog
empty. -/
def Obligations.DrainShiftsEveryQueuedBit : Prop :=
  ∀ s : State, ∃ t, exec .drain s = .next t ∧ t.transport.fifo = [] ∧
    execAll (s.transport.fifo.map fun b => .shiftEdge b.value)
      { s with transport := { s.transport with fifo := [] } } = .next t

/-- Section 4 of 40_bit_transport.md (a consequence the spec marks as derived): from an empty backlog,
under a legal configuration, an active edge with Select asserted shifts exactly one bit, the sampled
one. -/
def Obligations.ActiveEdgeShiftsExactlyOneBit : Prop :=
  ∀ (s : State) (clk si : Bit), s.cfg.wf = true → s.transport.fifo = [] →
    s.transport.clkPrev = some (!clk) → (clk = true ↔ s.cfg.activeEdge = .rising) →
    ∃ t, exec (.poll clk si s.cfg.selectAsserted) s = .next t ∧
      exec (.shiftEdge si)
        { s with transport := { s.transport with clkPrev := some clk, sdCnt := 0 } } = .next t

/-! ## The byte shifter -/

/-- R160, R163: a new bit enters at bit 0; before the eighth only the inbound register and counter
change; the eighth clears the counter and hands the byte to `BYTE_IN`. -/
def Obligations.RxBitShiftsInAndHandsOver : Prop :=
  ∀ (s : State) (v : Bit),
    (s.shifter.rxCnt ≠ 7 → exec (.rxBit v) s = .next
      { s with
        shifter :=
          { s.shifter with
            rxSr := s.shifter.rxSr.extractLsb' 0 7 ++ BitVec.ofBool v,
            rxCnt := s.shifter.rxCnt + 1 } }) ∧
    (s.shifter.rxCnt = 7 → ∃ t, exec (.rxBit v) s = .next t ∧
      exec (.byteIn (s.shifter.rxSr.extractLsb' 0 7 ++ BitVec.ofBool v))
        { s with
          shifter :=
            { s.shifter with
              rxSr := s.shifter.rxSr.extractLsb' 0 7 ++ BitVec.ofBool v, rxCnt := 0 } } = .next t)

/-- R161, R164: before the eighth bit the outbound register shifts left by one; the eighth takes the
pending byte and leaves the filler pending. -/
def Obligations.TxBitShiftsOutAndTakesTheNextByte : Prop :=
  ∀ s : State, ∃ t, exec .txBit s = .next t ∧
    t = { s with
          shifter :=
            { s.shifter with txSr := t.shifter.txSr, txCnt := t.shifter.txCnt,
                             txNext := t.shifter.txNext } } ∧
    (s.shifter.txCnt = 7 →
      t.shifter.txSr = s.shifter.txNext ∧ t.shifter.txCnt = 0 ∧ t.shifter.txNext = 0x00#8) ∧
    (s.shifter.txCnt ≠ 7 →
      t.shifter.txSr = s.shifter.txSr.extractLsb' 0 7 ++ 0#1 ∧
      t.shifter.txCnt.val = s.shifter.txCnt.val + 1 ∧ t.shifter.txNext = s.shifter.txNext)

/-- R162: one edge handles both directions, inbound first. -/
def Obligations.ShiftEdgeIsInboundThenOutbound : Prop :=
  ∀ (s : State) (v : Bit), ∃ t, exec (.shiftEdge v) s = .next t ∧
    execAll [.rxBit v, .txBit] s = .next t

/-- R160: eight bits from a byte boundary hand `BYTE_IN` the byte whose most significant bit came
first, whatever the register held before. -/
def Obligations.EightBitsFormByteMostSignificantFirst : Prop :=
  ∀ (s : State) (b : Byte), s.shifter.rxCnt = 0 → ∃ t,
    execAll ((wireBits b).map .rxBit) s = .next t ∧
    exec (.byteIn b) { s with shifter := { s.shifter with rxSr := b, rxCnt := 0 } } = .next t

/-- R161: from a byte boundary the line shows bit `7 - k` of the outbound byte after `k` shifts, and
the eighth shift loads the pending byte. -/
def Obligations.ByteGoesOutMostSignificantFirst : Prop :=
  ∀ s : State, s.shifter.txCnt = 0 →
    (∀ k, k < 8 → ∃ t, execAll (List.replicate k .txBit) s = .next t ∧
      t.so = s.shifter.txSr.getLsbD (7 - k)) ∧
    execAll (List.replicate 8 .txBit) s = .next
      { s with shifter := { s.shifter with txSr := s.shifter.txNext, txNext := 0x00#8 } }

/-- Section 6 of 42_packet_fsm.md (derived there): a byte slot from a byte boundary is `BYTE_IN` of the
byte clocked in, after which the byte it left pending is the one on the line. -/
def Obligations.ByteSlotHandlesTheByteThenLoadsTheReply : Prop :=
  ∀ (s : State) (b : Byte), s.shifter.rxCnt = 0 → s.shifter.txCnt = 0 → ∃ u,
    exec (.byteIn b) { s with shifter := { s.shifter with rxSr := b } } = .next u ∧
    execAll ((wireBits b).map .shiftEdge) s = .next
      { u with shifter := { u.shifter with txSr := u.shifter.txNext, txNext := 0x00#8 } }

/-! ## The packet frame-and-checksum validator -/

/-- R98, R176: `BYTE_IN` selects exactly one handler by packet state, sub-index and byte, and runs
it; the table is total. -/
def Obligations.ByteInSelectsOneHandler : Prop :=
  ∀ (s : State) (b : Byte), ∃ t, exec (.byteIn b) s = .next t ∧
    exec (byteHandler s.frame.ps s.frame.bidx b) s = .next t

/-- R177, R179, R180: synchronisation changes the packet state and nothing else. -/
def Obligations.SyncHandlersOnlyMoveThePacketState : Prop :=
  ∀ (s : State) (b : Byte),
    exec .idleSync1 s = .next { s with frame := { s.frame with ps := .sync1 } } ∧
    exec .sync1Sync2 s = .next { s with frame := { s.frame with ps := .sync2 } } ∧
    exec (.sync1Resync b) s = .next { s with frame := { s.frame with ps := .idle } } ∧
    (s.frame.ps = .idle → exec (.byteIn 0x88#8) s =
      .next { s with frame := { s.frame with ps := .sync1 } }) ∧
    (s.frame.ps = .sync1 → exec (.byteIn b) s =
      .next { s with frame := { s.frame with ps := if b = 0x33#8 then .sync2 else .idle } })

/-- Section 2 of 42_packet_fsm.md (the spec marks the skip as derived): in `Idle` any byte but the first
sync byte leaves every field as it is. -/
def Obligations.ByteOutsideAFrameIsSkipped : Prop :=
  ∀ (s : State) (b : Byte), exec (.idleSkip b) s = .next s ∧
    (s.frame.ps = .idle → b ≠ 0x88#8 → exec (.byteIn b) s = .next s)

/-- R181, R182: the command byte starts the running sum; the raw compression byte is kept and
summed. -/
def Obligations.CommandAndCompressionBytesAreKeptAndSummed : Prop :=
  ∀ (s : State) (b : Byte),
    exec (.sync2Cmd b) s = .next
      { s with
        frame := { s.frame with cmd := b, sum := b.zeroExtend 16, ps := .readCompression } } ∧
    exec (.rdComp b) s = .next
      { s with
        frame :=
          { s.frame with
            comp := b, sum := s.frame.sum + b.zeroExtend 16, bidx := false, ps := .readLength } } ∧
    (s.frame.ps = .sync2 → exec (.byteIn b) s = exec (.sync2Cmd b) s) ∧
    (s.frame.ps = .readCompression → exec (.byteIn b) s = exec (.rdComp b) s)

/-- R183, R184: the length is taken low byte first, both bytes are summed one by one, the second
clears the payload buffer, and a zero length skips the payload. -/
def Obligations.LengthBytesLeadToPayloadOrChecksum : Prop :=
  ∀ (s : State) (b : Byte),
    exec (.rdLenLo b) s = .next
      { s with
        frame :=
          { s.frame with
            len := s.frame.len.extractLsb' 8 8 ++ b, sum := s.frame.sum + b.zeroExtend 16,
            bidx := true } } ∧
    exec (.rdLenHi b) s = .next
      { s with
        frame :=
          { s.frame with
            len := b ++ s.frame.len.extractLsb' 0 8, sum := s.frame.sum + b.zeroExtend 16,
            bidx := false, pidx := 0, pbuf := [],
            ps := if b ++ s.frame.len.extractLsb' 0 8 = 0#16 then .readChecksum
              else .readPayload } } ∧
    (s.frame.ps = .readLength → s.frame.bidx = false →
      exec (.byteIn b) s = exec (.rdLenLo b) s) ∧
    (s.frame.ps = .readLength → s.frame.bidx = true → exec (.byteIn b) s = exec (.rdLenHi b) s)

/-- R96, R97: the assembled length and checksum are `first + 256 * second`, and the checksum is compared
with the running sum for equality. -/
def Obligations.LengthAndChecksumAreLittleEndian : Prop :=
  ∀ (s : State) (lo hi : Byte),
    (∃ t, execAll [.rdLenLo lo, .rdLenHi hi] s = .next t ∧
      t.frame.len.toNat = lo.toNat + 256 * hi.toNat) ∧
    ∃ t, execAll [.rdCksLo lo, .rdCksHi hi] s = .next t ∧
      t.frame.cks.toNat = lo.toNat + 256 * hi.toNat ∧
      (t.frame.ckOk = true ↔ t.frame.cks = s.frame.sum)

/-- R185: a payload byte is appended and summed; the last one leads to the checksum. -/
def Obligations.PayloadByteIsAppendedAndSummed : Prop :=
  ∀ (s : State) (b : Byte),
    (s.frame.pidx + 1 ≠ s.frame.len.toNat → exec (.rdPay b) s = .next
      { s with
        frame :=
          { s.frame with
            pbuf := s.frame.pbuf ++ [b], pidx := s.frame.pidx + 1,
            sum := s.frame.sum + b.zeroExtend 16 } }) ∧
    (s.frame.pidx + 1 = s.frame.len.toNat → exec (.rdPay b) s = .next
      { s with
        frame :=
          { s.frame with
            pbuf := s.frame.pbuf ++ [b], pidx := s.frame.pidx + 1,
            sum := s.frame.sum + b.zeroExtend 16, bidx := false, ps := .readChecksum } }) ∧
    (s.frame.ps = .readPayload → exec (.byteIn b) s = exec (.rdPay b) s)

/-- R186, R189, R288: the low checksum byte is kept; at the high one all 16 bits are compared, a
mismatch sets `checksum_error` and emits one event, a match clears nothing, and either way the
keep-alive byte is left pending and the frame goes on. -/
def Obligations.ChecksumBytesAreComparedAndTheFrameGoesOn : Prop :=
  ∀ (s : State) (b : Byte),
    exec (.rdCksLo b) s = .next
      { s with
        frame := { s.frame with cks := s.frame.cks.extractLsb' 8 8 ++ b, bidx := true } } ∧
    (b ++ s.frame.cks.extractLsb' 0 8 = s.frame.sum → exec (.rdCksHi b) s = .next
      { s with
        frame :=
          { s.frame with cks := s.frame.sum, bidx := false, ckOk := true, ps := .readKeepAlive }
        shifter := { s.shifter with txNext := s.cfg.keepAliveByte } }) ∧
    (b ++ s.frame.cks.extractLsb' 0 8 ≠ s.frame.sum → ∃ t, exec (.rdCksHi b) s = .next t ∧
      PlusError .checksumMismatch
        { s with
          frame :=
            { s.frame with
              cks := b ++ s.frame.cks.extractLsb' 0 8, bidx := false, ckOk := false,
              ps := .readKeepAlive }
          shifter := { s.shifter with txNext := s.cfg.keepAliveByte }
          flags := { s.flags with checksumError := true } } t) ∧
    (s.frame.ps = .readChecksum → s.frame.bidx = false →
      exec (.byteIn b) s = exec (.rdCksLo b) s) ∧
    (s.frame.ps = .readChecksum → s.frame.bidx = true →
      exec (.byteIn b) s = exec (.rdCksHi b) s)

/-- R191, R102: the keep-alive byte is ignored; the packet is dispatched, then the status byte formed
after dispatch is left pending, and the state is `Idle`. -/
def Obligations.KeepAliveDispatchesThenRepliesStatus : Prop :=
  ∀ (s : State) (b : Byte), ∃ u, exec .dispatch s = .next u ∧
    exec (.rdKa b) s = .next
      { u with
        shifter := { u.shifter with txNext := statusByte u }, frame := { u.frame with ps := .idle } } ∧
    (s.frame.ps = .readKeepAlive → exec (.byteIn b) s = exec (.rdKa b) s)

/-- R106: the status byte has each flag at its configured position, `paper_out` reads 0 and so do the
three unassigned bits. -/
def Obligations.StatusByteHoldsTheFlags : Prop :=
  ∀ s : State, s.cfg.wf = true →
    (statusByte s).getLsbD s.cfg.posChecksumError.val = s.flags.checksumError ∧
    (statusByte s).getLsbD s.cfg.posBusy.val = s.flags.busy ∧
    (statusByte s).getLsbD s.cfg.posPacketError.val = s.flags.packetError ∧
    (statusByte s).getLsbD s.cfg.posPaperOut.val = false ∧
    (statusByte s).getLsbD s.cfg.posUnsupported.val = s.flags.unsupported ∧
    ∀ p : Fin 8, p ≠ s.cfg.posChecksumError → p ≠ s.cfg.posBusy → p ≠ s.cfg.posPacketError →
      p ≠ s.cfg.posUnsupported → (statusByte s).getLsbD p.val = false

/-! ## Dispatch and the packet commands -/

/-- R210, R100: a packet whose checksum did not match has no effect; any other runs the one command
its byte selects. -/
def Obligations.DispatchRunsTheSelectedCommand : Prop :=
  ∀ s : State,
    (s.frame.ckOk = false → exec .dispatch s = .next s) ∧
    (s.frame.ckOk = true → ∃ t, exec .dispatch s = .next t ∧
      exec
        (if s.frame.cmd = s.cfg.cmdInit then .cmdInit
          else if s.frame.cmd = s.cfg.cmdPrint then .cmdPrint
          else if s.frame.cmd = s.cfg.cmdData then .cmdData
          else if s.frame.cmd = s.cfg.cmdStatus then .cmdStatus
          else .cmdUnknown s.frame.cmd) s = .next t)

/-- R211: `INITIALIZE` clears the four flags and the ImageBuffer, with no event. -/
def Obligations.InitializeClearsFlagsAndImage : Prop :=
  ∀ s : State, exec .cmdInit s = .next
    { s with
      flags := { checksumError := false, busy := false, unsupported := false, packetError := false }
      rows := [] }

/-- R212, R293, R101: `DATA` appends the payload, decompressed if the compression byte is nonzero; a
payload that ends inside a run sets `packet_error`, emits one `TruncatedRun` and appends nothing. -/
def Obligations.DataAppendsThePayloadOrReportsTruncation : Prop :=
  ∀ s : State, ∃ t, exec .cmdData s = .next t ∧
    (s.frame.comp = 0x00#8 → exec (.append s.frame.pbuf) s = .next t) ∧
    (s.frame.comp ≠ 0x00#8 → ∀ data, decompressBytes s.frame.pbuf = some data →
      exec (.append data) s = .next t) ∧
    (s.frame.comp ≠ 0x00#8 → decompressBytes s.frame.pbuf = none →
      PlusError .truncatedRun { s with flags := { s.flags with packetError := true } } t)

/-- R213, R253, R254, R255, R108, R109, R295: `PRINT` with at least four payload bytes emits the buffer,
with blank margin rows of the two nibbles times the unit unless the buffer is empty, clears it, and
changes no flag; a shorter payload sets `packet_error`, emits one error event, keeps the buffer and
emits no image. -/
def Obligations.PrintEmitsTheFinishedImageOrReportsShortPayload : Prop :=
  ∀ s : State,
    (s.frame.pbuf.length < 4 → ∃ t, exec .cmdPrint s = .next t ∧
      PlusError .malformedPrintParameters { s with flags := { s.flags with packetError := true } }
        t) ∧
    ∀ (sheets margins palette exposure : Byte) (more : List Byte),
      s.frame.pbuf = sheets :: margins :: palette :: exposure :: more →
      ∃ (image : FinishedImage),
        exec .cmdPrint s = .next
          { s with
            rows := []
            out := s.out ++
              [.imageReady image
                { sheets, marginBefore := margins.extractLsb' 4 4,
                  marginAfter := margins.extractLsb' 0 4, palette, exposure }] } ∧
        image.width = 160 ∧ image.depth = 2 ∧ image.height = image.rows.length ∧
        image.marginBefore = margins.extractLsb' 4 4 ∧
        image.marginAfter = margins.extractLsb' 0 4 ∧
        (s.rows = [] → image.rows = []) ∧
        (s.rows ≠ [] → image.rows =
          List.replicate ((margins.toNat / 16) * s.cfg.marginUnitRows) (List.replicate 160 0#2) ++
            s.rows ++
            List.replicate ((margins.toNat % 16) * s.cfg.marginUnitRows)
              (List.replicate 160 0#2))

/-- R214, R215, R289: `STATUS` has no effect at all; an unknown command sets `unsupported` and emits
one event, and has no data effect. -/
def Obligations.StatusDoesNothingAndUnknownIsFlagged : Prop :=
  ∀ (s : State) (b : Byte), exec .cmdStatus s = .next s ∧
    ∃ t, exec (.cmdUnknown b) s = .next t ∧
      PlusError .unsupportedCommand { s with flags := { s.flags with unsupported := true } } t

/-! ## The RLE tile decompressor -/

/-- R230, R232, R233, R234: what the decompressor does with each control byte, and when it fails. -/
def Obligations.DecompressFollowsTheControlBytes : Prop :=
  decompressBytes [] = some [] ∧
  (∀ (c v : Byte) (rest : List Byte), c.getLsbD 7 = true →
    decompressBytes (c :: v :: rest) =
      (decompressBytes rest).map fun o => List.replicate (c.toNat % 128 + 1) v ++ o) ∧
  (∀ c : Byte, c.getLsbD 7 = true → decompressBytes [c] = none) ∧
  (∀ (c : Byte) (rest : List Byte), c.getLsbD 7 = false → rest.length < c.toNat + 1 →
    decompressBytes (c :: rest) = none) ∧
  (∀ (c : Byte) (rest : List Byte), c.getLsbD 7 = false → c.toNat + 1 ≤ rest.length →
    decompressBytes (c :: rest) =
      (decompressBytes (rest.drop (c.toNat + 1))).map fun o => rest.take (c.toNat + 1) ++ o)

/-- Section "Round trip" of 44_rle_decompressor.md: every byte sequence is the output of complete
runs, and decompressing complete runs gives back their outputs, so every compressor that emits only
complete runs is undone. -/
def Obligations.DecompressUndoesEveryCompressor : Prop :=
  (∀ runs : List Run, (∀ r ∈ runs, r.ok) →
    decompressBytes (runs.flatMap Run.bytes) = some (runs.flatMap Run.output)) ∧
  ∀ data : List Byte, ∃ runs : List Run, (∀ r ∈ runs, r.ok) ∧ runs.flatMap Run.output = data

/-- Section "Sizes" of 44_rle_decompressor.md (derived there): an input of `L` bytes gives at most
`128 * (L div 2)` bytes, and repeat runs of 128 reach the bound. -/
def Obligations.DecompressedSizeIsBounded : Prop :=
  (∀ input output : List Byte, decompressBytes input = some output →
    output.length ≤ 128 * (input.length / 2)) ∧
  ∀ k : Nat, ∃ output,
    decompressBytes (List.flatten (List.replicate k [0xFF#8, 0x00#8])) = some output ∧
      output.length = 128 * k

/-- Rules of 44_rle_decompressor.md for the operations executed on their own; that their input and
output stand in `ret` is the model's choice (notes/assumptions/5.md). -/
def Obligations.RleOperationsOnTheirOwn : Prop :=
  ∀ (s : State) (n : BitVec 7) (input : List Byte),
    (∃ t, exec (.rleRepeat n) s = .next t ∧ { t with ret := s.ret } = s ∧
      (∀ v rest, s.ret.rle.input = v :: rest →
        t.ret = { s.ret with
          rle := { s.ret.rle with
            input := rest
            output := s.ret.rle.output ++ List.replicate (n.toNat + 1) v } }) ∧
      (s.ret.rle.input = [] → t.ret.rle.truncated = true ∧ t.ret.rle.output = [])) ∧
    (∃ t, exec (.rleLiteral n) s = .next t ∧ { t with ret := s.ret } = s ∧
      (n.toNat + 1 ≤ s.ret.rle.input.length →
        t.ret = { s.ret with
          rle := { s.ret.rle with
            input := s.ret.rle.input.drop (n.toNat + 1)
            output := s.ret.rle.output ++ s.ret.rle.input.take (n.toNat + 1) } }) ∧
      (s.ret.rle.input.length < n.toNat + 1 →
        t.ret.rle.truncated = true ∧ t.ret.rle.output = [])) ∧
    ∃ t, exec (.decompress input) s = .next t ∧ { t with ret := s.ret } = s ∧
      decompressBytes input = if t.ret.rle.truncated then none else some t.ret.rle.output

/-! ## The raster image assembler and the outward events -/

/-- R249, R248, R250, R251, R292, R294: the size test, then the height test, then the write of eight
rows per tile row; on either error `packet_error` is set, one event is emitted and the buffer is
unchanged. -/
def Obligations.AppendTestsThenAppendsWholeTileRows : Prop :=
  ∀ (s : State) (data : List Byte), ∃ t, exec (.append data) s = .next t ∧
    (data.length % 320 ≠ 0 →
      PlusError .malformedTileData { s with flags := { s.flags with packetError := true } } t) ∧
    (data.length % 320 = 0 → s.cfg.maxHeight < s.rows.length + 8 * (data.length / 320) →
      PlusError .payloadOverflow { s with flags := { s.flags with packetError := true } } t) ∧
    (data.length % 320 = 0 → s.rows.length + 8 * (data.length / 320) ≤ s.cfg.maxHeight →
      ∃ new : List PixelRow, t = { s with rows := s.rows ++ new } ∧
        new.length = 8 * (data.length / 320) ∧ ∀ r ∈ new, r.length = 160)

/-- R110: where every pixel of an accepted payload lands. -/
def Obligations.AppendPlacesEveryPixel : Prop :=
  ∀ (s t : State) (data : List Byte), data.length % 320 = 0 →
    s.rows.length + 8 * (data.length / 320) ≤ s.cfg.maxHeight →
    exec (.append data) s = .next t →
    ∀ k r j c : Nat, k < data.length / 320 → r < 8 → j < 20 → c < 8 →
      ∃ (row : PixelRow) (lo hi : Byte), t.rows[s.rows.length + 8 * k + r]? = some row ∧
        data[320 * k + 16 * j + 2 * r]? = some lo ∧
        data[320 * k + 16 * j + 2 * r + 1]? = some hi ∧
        row[8 * j + c]? =
          some (BitVec.ofBool (hi.getLsbD (7 - c)) ++ BitVec.ofBool (lo.getLsbD (7 - c)))

/-- Section 2 of 45_image_assembler.md: `TILE_ROW_DECODE` gives 8 rows of 160 pixels, every input bit in
its pixel bit, is injective, and reaches every 8 by 160 picture: a bijection. That its rows stand in
`ret` is the model's choice (notes/assumptions/5.md). -/
def Obligations.TileRowDecodeIsABijectionOntoPixels : Prop :=
  (∀ (s : State) (d : Vector Byte 320), ∃ t, exec (.tileRowDecode d) s = .next t ∧
    { t with ret := s.ret } = s ∧ t.ret = { s.ret with tileRow := t.ret.tileRow } ∧
    t.ret.tileRow.length = 8 ∧ (∀ r ∈ t.ret.tileRow, r.length = 160) ∧
    ∀ (r : Fin 8) (j : Fin 20) (c : Fin 8), ∃ row, t.ret.tileRow[r.val]? = some row ∧
      row[8 * j.val + c.val]? =
        some (BitVec.ofBool ((d[16 * j.val + 2 * r.val + 1]).getLsbD (7 - c.val)) ++
          BitVec.ofBool ((d[16 * j.val + 2 * r.val]).getLsbD (7 - c.val)))) ∧
  (∀ (s t : State) (d e : Vector Byte 320), exec (.tileRowDecode d) s = .next t →
    exec (.tileRowDecode e) s = .next t → d = e) ∧
  ∀ (s : State) (picture : List PixelRow), picture.length = 8 → (∀ r ∈ picture, r.length = 160) →
    ∃ d t, exec (.tileRowDecode d) s = .next t ∧ t.ret.tileRow = picture

/-- Section 3 of 45_image_assembler.md: finalize clears the buffer and returns an image of width 160 and
depth 2 with the two margin fields, whose rows are the buffer's, in order, between the blank rows of the
two margins, or none for an empty buffer; a second finalize gives height 0. That its image stands in
`ret` is the model's choice (notes/assumptions/5.md). -/
def Obligations.FinalizeReturnsTheImageAndClears : Prop :=
  ∀ (s : State) (p q : PrintParameters), ∃ t image,
    exec (.finalize p) s = .next t ∧ t.ret = { s.ret with image := some image } ∧
    { t with ret := s.ret } = { s with rows := [] } ∧
    image.width = 160 ∧ image.depth = 2 ∧ image.height = image.rows.length ∧
    image.marginBefore = p.marginBefore ∧ image.marginAfter = p.marginAfter ∧
    (s.rows = [] → image.rows = [] ∧ image.height = 0) ∧
    (s.rows ≠ [] →
      image.rows =
        List.replicate (p.marginBefore.toNat * s.cfg.marginUnitRows) (List.replicate 160 0#2) ++
          s.rows ++
          List.replicate (p.marginAfter.toNat * s.cfg.marginUnitRows) (List.replicate 160 0#2) ∧
      image.height = p.marginBefore.toNat * s.cfg.marginUnitRows + s.rows.length +
        p.marginAfter.toNat * s.cfg.marginUnitRows) ∧
    ((∀ r ∈ s.rows, r.length = 160) → image.wf = true) ∧
    ∃ u second, exec (.finalize q) t = .next u ∧ u.ret.image = some second ∧
      second.height = 0 ∧ second.rows = []

/-- R274, R275: an emit appends one event and changes nothing else of the machine. -/
def Obligations.EmitAppendsOneEvent : Prop :=
  ∀ (s : State) (image : FinishedImage) (params : PrintParameters) (kind : ErrorKind),
    exec (.emitImageReady image params) s =
      .next { s with out := s.out ++ [.imageReady image params] } ∧
    ∃ t, exec (.emitProtocolError kind) s = .next t ∧ PlusError kind s t

/-! ## Steps, decoding and encoding -/

/-- A step runs the decoded event (00_scope.md section 5, 30_encoding.md section 2; the list of pending
events is notes/assumptions/1.md): under a legal configuration, if the oldest pending event's word
decodes to `i`, the step is `exec i` on the state with that event taken; such an `i` is well formed. -/
def Obligations.StepRunsTheDecodedEvent : Prop :=
  ∀ (s : State) (e : Event) (rest : List Event) (i : Instr), s.cfg.wf = true →
    s.inputs = e :: rest → decode s.cfg (.event e.kind) e.word = .instr i →
    step s = exec i { s with inputs := rest } ∧ i.wellFormed s.cfg = true

/-- When a step runs no event (notes/assumptions/1.md, 3.md, 9.md): with none pending the state is held;
a word that is none of its kind, and a configuration outside the constraints, are refused by name. -/
def Obligations.StepWithoutALegalEvent : Prop :=
  ∀ s : State,
    (s.cfg.wf = true → s.inputs = [] → step s = .next s) ∧
    (s.cfg.wf = true → ∀ e rest r, s.inputs = e :: rest →
      decode s.cfg (.event e.kind) e.word = .reject r → step s = .refused (.badEvent r)) ∧
    (s.cfg.wf = false → step s = .refused .badConfiguration)

/-- Words written out from the encodings of 30_encoding.md decode to what they stand for (under R7's
default command bytes, notes/assumptions/2.md). -/
def Obligations.WrittenOutWordsDecode : Prop :=
  decode Cfg.cfg0 (.event .poll) [0b00000110#8] = .instr (.poll true true false) ∧
  decode Cfg.cfg0 (.event .hostSetBusy) [0b00000001#8] = .instr (.hostSetBusy true) ∧
  decode Cfg.cfg0 (.byteSlot .idle false) [0b10001000#8] = .instr .idleSync1 ∧
  decode Cfg.cfg0 (.byteSlot .sync1 false) [0b00110011#8] = .instr .sync1Sync2 ∧
  decode Cfg.cfg0 (.byteSlot .readChecksum true) [0b10000000#8] = .instr (.rdCksHi 0x80#8) ∧
  decode Cfg.cfg0 .command [0b00000100#8] = .instr .cmdData ∧
  decode Cfg.cfg0 .control [0b10000010#8] = .instr (.rleRepeat 2#7) ∧
  decode Cfg.cfg0 .control [0b00000001#8] = .instr (.rleLiteral 1#7)

/-- Decode and encode agree, for every operation that has an encoding and every operand it admits:
under any legal configuration, the words of a well-formed operation decode to it at its place, and
only the internal sub-operations have none. -/
def Obligations.DecodeUndoesEncode : Prop :=
  ∀ (c : Cfg) (i : Instr), c.wf = true → i.wellFormed c = true →
    (i.isInternal = true ↔ encode c i = none) ∧
    ∀ place bytes, encode c i = some (place, bytes) → decode c place bytes = .instr i

/-- Each operation has one word: whatever bytes decode to it are the bytes the encoder gives it. For
`POLL` and `HOST_SET_BUSY` this rests on the model's refusal of a byte with a bit set above the word's
width, a choice (notes/assumptions/9.md), since the spec has no such byte. -/
def Obligations.EncodeUndoesDecode : Prop :=
  ∀ (c : Cfg) (place : Place) (bytes : List Byte) (i : Instr),
    decode c place bytes = .instr i → ∃ place', encode c i = some (place', bytes)

/-! ## The whole machine -/

/-- The invariants hold at the state after reset under every configuration, `State.reset` (CFG0,
notes/assumptions/2.md) among them, and after a `RESET` from any state. -/
def Obligations.InvariantsHoldAtReset : Prop :=
  (∀ c : Cfg, LinkInv (State.initial c) ∧ FrameInv (State.initial c) ∧ SumInv (State.initial c) ∧
    ImageInv (State.initial c)) ∧
  (LinkInv State.reset ∧ FrameInv State.reset ∧ SumInv State.reset ∧ ImageInv State.reset) ∧
  ∀ s : State, ∃ t, exec .reset s = .next t ∧ LinkInv t ∧ FrameInv t ∧ SumInv t ∧ ImageInv t

/-- Every step keeps the backlog empty, the two bit counters equal and the idle count in its range
(10_state.md sections 2 and 3, 40_bit_transport.md section 4; derived there). -/
def Obligations.StepKeepsTheLinkInvariant : Prop :=
  ∀ s t : State, LinkInv s → step s = .next t → LinkInv t

/-- Every step keeps the counters of the frame in the bounds 42_packet_fsm.md section 7 derives. -/
def Obligations.StepKeepsTheFrameInvariant : Prop :=
  ∀ s t : State, FrameInv s → step s = .next t → FrameInv t

/-- R187: in every state that keeps it, each step keeps the running sum equal to the 16-bit sum of
the command byte, the compression byte, the two length bytes and the payload bytes read so far; so at
the checksum it is the sum of them all. -/
def Obligations.StepKeepsTheRunningSum : Prop :=
  ∀ s t : State, SumInv s → step s = .next t → SumInv t

/-- Every step keeps the ImageBuffer within its maximum, in whole tile rows, with rows of 160 pixels
(10_state.md section 8; derived there). -/
def Obligations.StepKeepsTheImageInvariant : Prop :=
  ∀ s t : State, ImageInv s → step s = .next t → ImageInv t

/-- R175: a byte moves the packet state along the one edge of the state graph that its condition
selects. A step does so exactly when its event completes a byte, a `POLL` with an active edge when seven
bits are in; a `RESET`, or a deasserted `POLL` with the idle count at the threshold, forces `Idle`; any
other step leaves the whole in-flight packet state as it is. `RESET`, `BUS_RESET` and
`TransportOverflow` force `Idle` from any state. -/
def Obligations.StepFollowsTheStateGraph : Prop :=
  (∀ (s : State) (b : Byte), ∃ t, exec (.byteIn b) s = .next t ∧
    graphNode t.frame = graphStep s.frame b) ∧
  (∀ s t : State, LinkInv s → step s = .next t →
    (∀ b, CompletesByte s b → graphNode t.frame = graphStep s.frame b) ∧
    (ForcesIdle s → t.frame.ps = .idle) ∧
    ((∀ b, ¬CompletesByte s b) → ¬ForcesIdle s → t.frame = s.frame)) ∧
  ∀ (s : State) (si : Bit),
    (∃ t, exec .reset s = .next t ∧ t.frame.ps = .idle) ∧
    (∃ t, exec .busReset s = .next t ∧ t.frame.ps = .idle) ∧
    (s.cfg.backlogDepth ≤ s.transport.fifo.length →
      ∃ t, exec (.sample si) s = .next t ∧ t.frame.ps = .idle)

/-- 40_bit_transport.md section 4, derived there: no step from a state with an empty backlog emits a
`TransportOverflow`. -/
def Obligations.TransportOverflowIsUnreachable : Prop :=
  ∀ s t : State, LinkInv s → step s = .next t →
    ∀ n, OutEvent.protocolError .transportOverflow n ∈ t.out →
      OutEvent.protocolError .transportOverflow n ∈ s.out

/-- 60_exceptions.md section 3, derived there: a step other than `RESET` appends at most one event to
the trace, and the step that appends an error event leaves the image as it was. -/
def Obligations.StepEmitsAtMostOneEvent : Prop :=
  ∀ s t : State, LinkInv s → step s = .next t →
    (∃ e rest, s.inputs = e :: rest ∧ e.kind = .reset) ∨ t.out = s.out ∨
      (∃ image params, t.out = s.out ++ [.imageReady image params] ∧ t.rows = []) ∨
      ∃ kind n, t.out = s.out ++ [.protocolError kind n] ∧ t.rows = s.rows

/-- R302: a flag set by an error stays set until a `RESET` or the step that completes the keep-alive
byte of a checksum-correct `INITIALIZE`: a `POLL` with an active edge when seven bits of that byte are
in, after which the packet state is `Idle`. -/
def Obligations.ErrorFlagsAreSticky : Prop :=
  ∀ s t : State, LinkInv s → step s = .next t →
    (s.flags.checksumError = true ∧ t.flags.checksumError = false ∨
      s.flags.unsupported = true ∧ t.flags.unsupported = false ∨
      s.flags.packetError = true ∧ t.flags.packetError = false) →
    NextEvent s .reset ∨
      ((∃ b, CompletesByte s b) ∧ s.frame.ps = .readKeepAlive ∧ t.frame.ps = .idle ∧
        s.frame.ckOk = true ∧ s.frame.cmd = s.cfg.cmdInit)

/-- R245: only a `RESET`, or the step that completes the keep-alive byte of a checksum-correct `DATA`,
`PRINT` or `INITIALIZE`, changes the ImageBuffer. -/
def Obligations.OnlyImageCommandsChangeTheImage : Prop :=
  ∀ s t : State, LinkInv s → step s = .next t → t.rows ≠ s.rows →
    NextEvent s .reset ∨
      ((∃ b, CompletesByte s b) ∧ s.frame.ps = .readKeepAlive ∧ t.frame.ps = .idle ∧
        s.frame.ckOk = true ∧
        (s.frame.cmd = s.cfg.cmdData ∨ s.frame.cmd = s.cfg.cmdPrint ∨
          s.frame.cmd = s.cfg.cmdInit))

/-- R272: the flags are read only to form the status byte: a step from two states that differ in the
flags alone differs only in the flags and in the byte being sent. -/
def Obligations.FlagsReachOnlyTheReply : Prop :=
  ∀ (s t : State) (f : Flags), step s = .next t →
    ∃ (g : Flags) (sr next : Byte), step { s with flags := f } = .next
      { t with flags := g, shifter := { t.shifter with txSr := sr, txNext := next } }

/-- 00_scope.md section 4 and the model's own field (notes/assumptions/5.md): no step writes the
configuration or what an internal operation returned, and a step takes at most one pending event. -/
def Obligations.StepNeverWritesTheConfiguration : Prop :=
  ∀ s t : State, step s = .next t →
    t.cfg = s.cfg ∧ t.ret = s.ret ∧ (t.inputs = s.inputs ∨ ∃ e, s.inputs = e :: t.inputs)

/-- 43_packet_dispatch.md, derived there: dispatch writes only the flags, the image and the trace. -/
def Obligations.DispatchLeavesTheLinkAndTheFrameAlone : Prop :=
  ∀ s : State, ∃ t, exec .dispatch s = .next t ∧
    { t with flags := s.flags, rows := s.rows, out := s.out, draws := s.draws } = s

/-- The headline: the bytes of a frame (30_encoding.md section 3), received from `Idle`, are parsed to
one packet. With the correct checksum the keep-alive byte, whatever it is, dispatches a packet with
exactly the command, compression byte and payload sent, and its status byte is left pending. -/
def Obligations.CorrectFrameIsDispatched : Prop :=
  ∀ (s : State) (cmd comp ka : Byte) (payload : List Byte),
    s.frame.ps = .idle → payload.length < 65536 →
    ∃ p u,
      execAll
        ((frameBytes cmd comp payload (frameSum cmd comp payload)).map .byteIn) s = .next p ∧
      p = { s with
            shifter := { s.shifter with txNext := s.cfg.keepAliveByte }
            frame :=
              { ps := .readKeepAlive, bidx := false, pidx := payload.length, cmd, comp,
                len := BitVec.ofNat 16 payload.length, sum := frameSum cmd comp payload,
                cks := frameSum cmd comp payload, ckOk := true, pbuf := payload } } ∧
      exec (decodeCommand s.cfg cmd) p = .next u ∧
      execAll
        ((frameBytes cmd comp payload (frameSum cmd comp payload) ++ [ka]).map .byteIn) s =
        .next { u with
          shifter := { u.shifter with txNext := statusByte u }
          frame := { u.frame with ps := .idle } }

/-- R288, R189, R191, R210: a frame with any other checksum is read to its end with the mismatch
recorded (the received value and the computed sum both kept, the flag set, one `ChecksumMismatch`) and
the keep-alive byte left pending; then the keep-alive byte, whatever it is, dispatches nothing: the
status byte is left pending, with its checksum-error bit set, in `Idle` (95_test_vectors.md S1). -/
def Obligations.WrongChecksumIsRecordedAndAnswered : Prop :=
  ∀ (s : State) (cmd comp ka : Byte) (payload : List Byte) (cks : Half),
    s.frame.ps = .idle → payload.length < 65536 → cks ≠ frameSum cmd comp payload →
    ∃ p t, execAll ((frameBytes cmd comp payload cks).map .byteIn) s = .next p ∧
      PlusError .checksumMismatch
        { s with
          shifter := { s.shifter with txNext := s.cfg.keepAliveByte }
          flags := { s.flags with checksumError := true }
          frame :=
            { ps := .readKeepAlive, bidx := false, pidx := payload.length, cmd, comp,
              len := BitVec.ofNat 16 payload.length, sum := frameSum cmd comp payload,
              cks, ckOk := false, pbuf := payload } } p ∧
      execAll ((frameBytes cmd comp payload cks ++ [ka]).map .byteIn) s = .next t ∧
      t = { p with
            shifter := { p.shifter with txNext := statusByte p }
            frame := { p.frame with ps := .idle } } ∧
      t.shifter.txNext.getLsbD s.cfg.posChecksumError.val = true
end

