-- ==== Sys2Proof/Laws/State.lean ====
section
/-! SUPPORT. One lemma per field per named update of State: reading a field after an update. -/

namespace Sys2Proof.Machine

variable (s : State)

/-! Reading after `setTransport`. -/

@[simp] theorem State.setTransport_cfg (v : Transport) : (s.setTransport v).cfg = s.cfg := rfl
@[simp] theorem State.setTransport_transport (v : Transport) : (s.setTransport v).transport = v := rfl
@[simp] theorem State.setTransport_shifter (v : Transport) : (s.setTransport v).shifter = s.shifter := rfl
@[simp] theorem State.setTransport_frame (v : Transport) : (s.setTransport v).frame = s.frame := rfl
@[simp] theorem State.setTransport_flags (v : Transport) : (s.setTransport v).flags = s.flags := rfl
@[simp] theorem State.setTransport_rows (v : Transport) : (s.setTransport v).rows = s.rows := rfl
@[simp] theorem State.setTransport_out (v : Transport) : (s.setTransport v).out = s.out := rfl
@[simp] theorem State.setTransport_inputs (v : Transport) : (s.setTransport v).inputs = s.inputs := rfl
@[simp] theorem State.setTransport_draws (v : Transport) : (s.setTransport v).draws = s.draws := rfl
@[simp] theorem State.setTransport_ret (v : Transport) : (s.setTransport v).ret = s.ret := rfl
@[simp] theorem State.setTransport_setTransport (v w : Transport) : (s.setTransport v).setTransport w = s.setTransport w := rfl
@[simp] theorem State.setTransport_self : s.setTransport s.transport = s := rfl

/-! Reading after `setShifter`. -/

@[simp] theorem State.setShifter_cfg (v : Shifter) : (s.setShifter v).cfg = s.cfg := rfl
@[simp] theorem State.setShifter_transport (v : Shifter) : (s.setShifter v).transport = s.transport := rfl
@[simp] theorem State.setShifter_shifter (v : Shifter) : (s.setShifter v).shifter = v := rfl
@[simp] theorem State.setShifter_frame (v : Shifter) : (s.setShifter v).frame = s.frame := rfl
@[simp] theorem State.setShifter_flags (v : Shifter) : (s.setShifter v).flags = s.flags := rfl
@[simp] theorem State.setShifter_rows (v : Shifter) : (s.setShifter v).rows = s.rows := rfl
@[simp] theorem State.setShifter_out (v : Shifter) : (s.setShifter v).out = s.out := rfl
@[simp] theorem State.setShifter_inputs (v : Shifter) : (s.setShifter v).inputs = s.inputs := rfl
@[simp] theorem State.setShifter_draws (v : Shifter) : (s.setShifter v).draws = s.draws := rfl
@[simp] theorem State.setShifter_ret (v : Shifter) : (s.setShifter v).ret = s.ret := rfl
@[simp] theorem State.setShifter_setShifter (v w : Shifter) : (s.setShifter v).setShifter w = s.setShifter w := rfl
@[simp] theorem State.setShifter_self : s.setShifter s.shifter = s := rfl

/-! Reading after `setFrame`. -/

@[simp] theorem State.setFrame_cfg (v : Frame) : (s.setFrame v).cfg = s.cfg := rfl
@[simp] theorem State.setFrame_transport (v : Frame) : (s.setFrame v).transport = s.transport := rfl
@[simp] theorem State.setFrame_shifter (v : Frame) : (s.setFrame v).shifter = s.shifter := rfl
@[simp] theorem State.setFrame_frame (v : Frame) : (s.setFrame v).frame = v := rfl
@[simp] theorem State.setFrame_flags (v : Frame) : (s.setFrame v).flags = s.flags := rfl
@[simp] theorem State.setFrame_rows (v : Frame) : (s.setFrame v).rows = s.rows := rfl
@[simp] theorem State.setFrame_out (v : Frame) : (s.setFrame v).out = s.out := rfl
@[simp] theorem State.setFrame_inputs (v : Frame) : (s.setFrame v).inputs = s.inputs := rfl
@[simp] theorem State.setFrame_draws (v : Frame) : (s.setFrame v).draws = s.draws := rfl
@[simp] theorem State.setFrame_ret (v : Frame) : (s.setFrame v).ret = s.ret := rfl
@[simp] theorem State.setFrame_setFrame (v w : Frame) : (s.setFrame v).setFrame w = s.setFrame w := rfl
@[simp] theorem State.setFrame_self : s.setFrame s.frame = s := rfl

/-! Reading after `setFlags`. -/

@[simp] theorem State.setFlags_cfg (v : Flags) : (s.setFlags v).cfg = s.cfg := rfl
@[simp] theorem State.setFlags_transport (v : Flags) : (s.setFlags v).transport = s.transport := rfl
@[simp] theorem State.setFlags_shifter (v : Flags) : (s.setFlags v).shifter = s.shifter := rfl
@[simp] theorem State.setFlags_frame (v : Flags) : (s.setFlags v).frame = s.frame := rfl
@[simp] theorem State.setFlags_flags (v : Flags) : (s.setFlags v).flags = v := rfl
@[simp] theorem State.setFlags_rows (v : Flags) : (s.setFlags v).rows = s.rows := rfl
@[simp] theorem State.setFlags_out (v : Flags) : (s.setFlags v).out = s.out := rfl
@[simp] theorem State.setFlags_inputs (v : Flags) : (s.setFlags v).inputs = s.inputs := rfl
@[simp] theorem State.setFlags_draws (v : Flags) : (s.setFlags v).draws = s.draws := rfl
@[simp] theorem State.setFlags_ret (v : Flags) : (s.setFlags v).ret = s.ret := rfl
@[simp] theorem State.setFlags_setFlags (v w : Flags) : (s.setFlags v).setFlags w = s.setFlags w := rfl
@[simp] theorem State.setFlags_self : s.setFlags s.flags = s := rfl

/-! Reading after `setRows`. -/

@[simp] theorem State.setRows_cfg (v : List PixelRow) : (s.setRows v).cfg = s.cfg := rfl
@[simp] theorem State.setRows_transport (v : List PixelRow) : (s.setRows v).transport = s.transport := rfl
@[simp] theorem State.setRows_shifter (v : List PixelRow) : (s.setRows v).shifter = s.shifter := rfl
@[simp] theorem State.setRows_frame (v : List PixelRow) : (s.setRows v).frame = s.frame := rfl
@[simp] theorem State.setRows_flags (v : List PixelRow) : (s.setRows v).flags = s.flags := rfl
@[simp] theorem State.setRows_rows (v : List PixelRow) : (s.setRows v).rows = v := rfl
@[simp] theorem State.setRows_out (v : List PixelRow) : (s.setRows v).out = s.out := rfl
@[simp] theorem State.setRows_inputs (v : List PixelRow) : (s.setRows v).inputs = s.inputs := rfl
@[simp] theorem State.setRows_draws (v : List PixelRow) : (s.setRows v).draws = s.draws := rfl
@[simp] theorem State.setRows_ret (v : List PixelRow) : (s.setRows v).ret = s.ret := rfl
@[simp] theorem State.setRows_setRows (v w : List PixelRow) : (s.setRows v).setRows w = s.setRows w := rfl
@[simp] theorem State.setRows_self : s.setRows s.rows = s := rfl

/-! Reading after `setOut`. -/

@[simp] theorem State.setOut_cfg (v : List OutEvent) : (s.setOut v).cfg = s.cfg := rfl
@[simp] theorem State.setOut_transport (v : List OutEvent) : (s.setOut v).transport = s.transport := rfl
@[simp] theorem State.setOut_shifter (v : List OutEvent) : (s.setOut v).shifter = s.shifter := rfl
@[simp] theorem State.setOut_frame (v : List OutEvent) : (s.setOut v).frame = s.frame := rfl
@[simp] theorem State.setOut_flags (v : List OutEvent) : (s.setOut v).flags = s.flags := rfl
@[simp] theorem State.setOut_rows (v : List OutEvent) : (s.setOut v).rows = s.rows := rfl
@[simp] theorem State.setOut_out (v : List OutEvent) : (s.setOut v).out = v := rfl
@[simp] theorem State.setOut_inputs (v : List OutEvent) : (s.setOut v).inputs = s.inputs := rfl
@[simp] theorem State.setOut_draws (v : List OutEvent) : (s.setOut v).draws = s.draws := rfl
@[simp] theorem State.setOut_ret (v : List OutEvent) : (s.setOut v).ret = s.ret := rfl
@[simp] theorem State.setOut_setOut (v w : List OutEvent) : (s.setOut v).setOut w = s.setOut w := rfl
@[simp] theorem State.setOut_self : s.setOut s.out = s := rfl

/-! Reading after `setInputs`. -/

@[simp] theorem State.setInputs_cfg (v : List Event) : (s.setInputs v).cfg = s.cfg := rfl
@[simp] theorem State.setInputs_transport (v : List Event) : (s.setInputs v).transport = s.transport := rfl
@[simp] theorem State.setInputs_shifter (v : List Event) : (s.setInputs v).shifter = s.shifter := rfl
@[simp] theorem State.setInputs_frame (v : List Event) : (s.setInputs v).frame = s.frame := rfl
@[simp] theorem State.setInputs_flags (v : List Event) : (s.setInputs v).flags = s.flags := rfl
@[simp] theorem State.setInputs_rows (v : List Event) : (s.setInputs v).rows = s.rows := rfl
@[simp] theorem State.setInputs_out (v : List Event) : (s.setInputs v).out = s.out := rfl
@[simp] theorem State.setInputs_inputs (v : List Event) : (s.setInputs v).inputs = v := rfl
@[simp] theorem State.setInputs_draws (v : List Event) : (s.setInputs v).draws = s.draws := rfl
@[simp] theorem State.setInputs_ret (v : List Event) : (s.setInputs v).ret = s.ret := rfl
@[simp] theorem State.setInputs_setInputs (v w : List Event) : (s.setInputs v).setInputs w = s.setInputs w := rfl
@[simp] theorem State.setInputs_self : s.setInputs s.inputs = s := rfl

/-! Reading after `setDraws`. -/

@[simp] theorem State.setDraws_cfg (v : Nat) : (s.setDraws v).cfg = s.cfg := rfl
@[simp] theorem State.setDraws_transport (v : Nat) : (s.setDraws v).transport = s.transport := rfl
@[simp] theorem State.setDraws_shifter (v : Nat) : (s.setDraws v).shifter = s.shifter := rfl
@[simp] theorem State.setDraws_frame (v : Nat) : (s.setDraws v).frame = s.frame := rfl
@[simp] theorem State.setDraws_flags (v : Nat) : (s.setDraws v).flags = s.flags := rfl
@[simp] theorem State.setDraws_rows (v : Nat) : (s.setDraws v).rows = s.rows := rfl
@[simp] theorem State.setDraws_out (v : Nat) : (s.setDraws v).out = s.out := rfl
@[simp] theorem State.setDraws_inputs (v : Nat) : (s.setDraws v).inputs = s.inputs := rfl
@[simp] theorem State.setDraws_draws (v : Nat) : (s.setDraws v).draws = v := rfl
@[simp] theorem State.setDraws_ret (v : Nat) : (s.setDraws v).ret = s.ret := rfl
@[simp] theorem State.setDraws_setDraws (v w : Nat) : (s.setDraws v).setDraws w = s.setDraws w := rfl
@[simp] theorem State.setDraws_self : s.setDraws s.draws = s := rfl

/-! Reading after `setRet`. -/

@[simp] theorem State.setRet_cfg (v : Returned) : (s.setRet v).cfg = s.cfg := rfl
@[simp] theorem State.setRet_transport (v : Returned) : (s.setRet v).transport = s.transport := rfl
@[simp] theorem State.setRet_shifter (v : Returned) : (s.setRet v).shifter = s.shifter := rfl
@[simp] theorem State.setRet_frame (v : Returned) : (s.setRet v).frame = s.frame := rfl
@[simp] theorem State.setRet_flags (v : Returned) : (s.setRet v).flags = s.flags := rfl
@[simp] theorem State.setRet_rows (v : Returned) : (s.setRet v).rows = s.rows := rfl
@[simp] theorem State.setRet_out (v : Returned) : (s.setRet v).out = s.out := rfl
@[simp] theorem State.setRet_inputs (v : Returned) : (s.setRet v).inputs = s.inputs := rfl
@[simp] theorem State.setRet_draws (v : Returned) : (s.setRet v).draws = s.draws := rfl
@[simp] theorem State.setRet_ret (v : Returned) : (s.setRet v).ret = v := rfl
@[simp] theorem State.setRet_setRet (v w : Returned) : (s.setRet v).setRet w = s.setRet w := rfl
@[simp] theorem State.setRet_self : s.setRet s.ret = s := rfl

end Sys2Proof.Machine
end

