-- ==== Sys2Proof/Laws/Ops.lean ====
section
/-! SUPPORT. What each shared operation of Ops and Flags does: one lemma per field, and what raising an error leaves (spec/60_exceptions.md R286 to R296). -/

namespace Sys2Proof.Machine

variable (s : State)

/-! Reading after `emitImage`. -/

@[simp] theorem emitImage_cfg (image : FinishedImage) (params : PrintParameters) : (emitImage image params s).cfg = s.cfg := rfl
@[simp] theorem emitImage_transport (image : FinishedImage) (params : PrintParameters) : (emitImage image params s).transport = s.transport := rfl
@[simp] theorem emitImage_shifter (image : FinishedImage) (params : PrintParameters) : (emitImage image params s).shifter = s.shifter := rfl
@[simp] theorem emitImage_frame (image : FinishedImage) (params : PrintParameters) : (emitImage image params s).frame = s.frame := rfl
@[simp] theorem emitImage_flags (image : FinishedImage) (params : PrintParameters) : (emitImage image params s).flags = s.flags := rfl
@[simp] theorem emitImage_rows (image : FinishedImage) (params : PrintParameters) : (emitImage image params s).rows = s.rows := rfl
@[simp] theorem emitImage_out (image : FinishedImage) (params : PrintParameters) : (emitImage image params s).out = s.out ++ [.imageReady image params] := rfl
@[simp] theorem emitImage_inputs (image : FinishedImage) (params : PrintParameters) : (emitImage image params s).inputs = s.inputs := rfl
@[simp] theorem emitImage_draws (image : FinishedImage) (params : PrintParameters) : (emitImage image params s).draws = s.draws := rfl
@[simp] theorem emitImage_ret (image : FinishedImage) (params : PrintParameters) : (emitImage image params s).ret = s.ret := rfl

/-! Reading after `emitError`. -/

@[simp] theorem emitError_cfg (kind : ErrorKind) : (emitError kind s).cfg = s.cfg := rfl
@[simp] theorem emitError_transport (kind : ErrorKind) : (emitError kind s).transport = s.transport := rfl
@[simp] theorem emitError_shifter (kind : ErrorKind) : (emitError kind s).shifter = s.shifter := rfl
@[simp] theorem emitError_frame (kind : ErrorKind) : (emitError kind s).frame = s.frame := rfl
@[simp] theorem emitError_flags (kind : ErrorKind) : (emitError kind s).flags = s.flags := rfl
@[simp] theorem emitError_rows (kind : ErrorKind) : (emitError kind s).rows = s.rows := rfl
@[simp] theorem emitError_out (kind : ErrorKind) : (emitError kind s).out = s.out ++ [.protocolError kind s.draws] := rfl
@[simp] theorem emitError_inputs (kind : ErrorKind) : (emitError kind s).inputs = s.inputs := rfl
@[simp] theorem emitError_draws (kind : ErrorKind) : (emitError kind s).draws = s.draws + 1 := rfl
@[simp] theorem emitError_ret (kind : ErrorKind) : (emitError kind s).ret = s.ret := rfl

/-! Reading after `resetBus`. -/

@[simp] theorem resetBus_cfg : (resetBus s).cfg = s.cfg := rfl
@[simp] theorem resetBus_transport : (resetBus s).transport = { s.transport with fifo := [] } := rfl
@[simp] theorem resetBus_shifter : (resetBus s).shifter = Shifter.reset := rfl
@[simp] theorem resetBus_frame : (resetBus s).frame = Frame.reset := rfl
@[simp] theorem resetBus_flags : (resetBus s).flags = s.flags := rfl
@[simp] theorem resetBus_rows : (resetBus s).rows = s.rows := rfl
@[simp] theorem resetBus_out : (resetBus s).out = s.out := rfl
@[simp] theorem resetBus_inputs : (resetBus s).inputs = s.inputs := rfl
@[simp] theorem resetBus_draws : (resetBus s).draws = s.draws := rfl
@[simp] theorem resetBus_ret : (resetBus s).ret = s.ret := rfl

/-! Reading after `setChecksumError`. -/

@[simp] theorem setChecksumError_cfg : (setChecksumError s).cfg = s.cfg := rfl
@[simp] theorem setChecksumError_transport : (setChecksumError s).transport = s.transport := rfl
@[simp] theorem setChecksumError_shifter : (setChecksumError s).shifter = s.shifter := rfl
@[simp] theorem setChecksumError_frame : (setChecksumError s).frame = s.frame := rfl
@[simp] theorem setChecksumError_flags : (setChecksumError s).flags = { s.flags with checksumError := true } := rfl
@[simp] theorem setChecksumError_rows : (setChecksumError s).rows = s.rows := rfl
@[simp] theorem setChecksumError_out : (setChecksumError s).out = s.out := rfl
@[simp] theorem setChecksumError_inputs : (setChecksumError s).inputs = s.inputs := rfl
@[simp] theorem setChecksumError_draws : (setChecksumError s).draws = s.draws := rfl
@[simp] theorem setChecksumError_ret : (setChecksumError s).ret = s.ret := rfl

/-! Reading after `setUnsupported`. -/

@[simp] theorem setUnsupported_cfg : (setUnsupported s).cfg = s.cfg := rfl
@[simp] theorem setUnsupported_transport : (setUnsupported s).transport = s.transport := rfl
@[simp] theorem setUnsupported_shifter : (setUnsupported s).shifter = s.shifter := rfl
@[simp] theorem setUnsupported_frame : (setUnsupported s).frame = s.frame := rfl
@[simp] theorem setUnsupported_flags : (setUnsupported s).flags = { s.flags with unsupported := true } := rfl
@[simp] theorem setUnsupported_rows : (setUnsupported s).rows = s.rows := rfl
@[simp] theorem setUnsupported_out : (setUnsupported s).out = s.out := rfl
@[simp] theorem setUnsupported_inputs : (setUnsupported s).inputs = s.inputs := rfl
@[simp] theorem setUnsupported_draws : (setUnsupported s).draws = s.draws := rfl
@[simp] theorem setUnsupported_ret : (setUnsupported s).ret = s.ret := rfl

/-! Reading after `setPacketError`. -/

@[simp] theorem setPacketError_cfg : (setPacketError s).cfg = s.cfg := rfl
@[simp] theorem setPacketError_transport : (setPacketError s).transport = s.transport := rfl
@[simp] theorem setPacketError_shifter : (setPacketError s).shifter = s.shifter := rfl
@[simp] theorem setPacketError_frame : (setPacketError s).frame = s.frame := rfl
@[simp] theorem setPacketError_flags : (setPacketError s).flags = { s.flags with packetError := true } := rfl
@[simp] theorem setPacketError_rows : (setPacketError s).rows = s.rows := rfl
@[simp] theorem setPacketError_out : (setPacketError s).out = s.out := rfl
@[simp] theorem setPacketError_inputs : (setPacketError s).inputs = s.inputs := rfl
@[simp] theorem setPacketError_draws : (setPacketError s).draws = s.draws := rfl
@[simp] theorem setPacketError_ret : (setPacketError s).ret = s.ret := rfl

/-! Reading after `writeBusy`. -/

@[simp] theorem writeBusy_cfg (b : Bit) : (writeBusy b s).cfg = s.cfg := rfl
@[simp] theorem writeBusy_transport (b : Bit) : (writeBusy b s).transport = s.transport := rfl
@[simp] theorem writeBusy_shifter (b : Bit) : (writeBusy b s).shifter = s.shifter := rfl
@[simp] theorem writeBusy_frame (b : Bit) : (writeBusy b s).frame = s.frame := rfl
@[simp] theorem writeBusy_flags (b : Bit) : (writeBusy b s).flags = { s.flags with busy := b } := rfl
@[simp] theorem writeBusy_rows (b : Bit) : (writeBusy b s).rows = s.rows := rfl
@[simp] theorem writeBusy_out (b : Bit) : (writeBusy b s).out = s.out := rfl
@[simp] theorem writeBusy_inputs (b : Bit) : (writeBusy b s).inputs = s.inputs := rfl
@[simp] theorem writeBusy_draws (b : Bit) : (writeBusy b s).draws = s.draws := rfl
@[simp] theorem writeBusy_ret (b : Bit) : (writeBusy b s).ret = s.ret := rfl

/-! Reading after `clearFlags`. -/

@[simp] theorem clearFlags_cfg : (clearFlags s).cfg = s.cfg := rfl
@[simp] theorem clearFlags_transport : (clearFlags s).transport = s.transport := rfl
@[simp] theorem clearFlags_shifter : (clearFlags s).shifter = s.shifter := rfl
@[simp] theorem clearFlags_frame : (clearFlags s).frame = s.frame := rfl
@[simp] theorem clearFlags_flags : (clearFlags s).flags = Flags.reset := rfl
@[simp] theorem clearFlags_rows : (clearFlags s).rows = s.rows := rfl
@[simp] theorem clearFlags_out : (clearFlags s).out = s.out := rfl
@[simp] theorem clearFlags_inputs : (clearFlags s).inputs = s.inputs := rfl
@[simp] theorem clearFlags_draws : (clearFlags s).draws = s.draws := rfl
@[simp] theorem clearFlags_ret : (clearFlags s).ret = s.ret := rfl

/-! Reading after `resetAll`. -/

@[simp] theorem resetAll_cfg : (resetAll s).cfg = s.cfg := rfl
@[simp] theorem resetAll_transport : (resetAll s).transport = Transport.reset := rfl
@[simp] theorem resetAll_shifter : (resetAll s).shifter = Shifter.reset := rfl
@[simp] theorem resetAll_frame : (resetAll s).frame = Frame.reset := rfl
@[simp] theorem resetAll_flags : (resetAll s).flags = Flags.reset := rfl
@[simp] theorem resetAll_rows : (resetAll s).rows = [] := rfl
@[simp] theorem resetAll_out : (resetAll s).out = [] := rfl
@[simp] theorem resetAll_inputs : (resetAll s).inputs = s.inputs := rfl
@[simp] theorem resetAll_draws : (resetAll s).draws = s.draws := rfl
@[simp] theorem resetAll_ret : (resetAll s).ret = s.ret := rfl

/-- Every kind but `TransportOverflow` changes only flags and trace, by one event (R286, R300). -/
theorem raise_spec (kind : ErrorKind) (h : kind ≠ .transportOverflow) :
    ∃ f, raise kind s = emitError kind (s.setFlags f) := by
  cases kind <;> first | exact absurd rfl h | exact ⟨_, rfl⟩

/-- `TransportOverflow` is the bus reset and one event (R296). -/
theorem raise_transportOverflow :
    raise .transportOverflow s = emitError .transportOverflow (resetBus s) := rfl

/-- Fetching finds nothing only when no event is pending (R140). -/
theorem fetch_idle (h : fetch s = .idle) : s.inputs = [] := by
  unfold fetch at h
  cases hs : s.inputs with
  | nil => rfl
  | cons e rest =>
    simp only [hs] at h
    cases hd : decode s.cfg (.event e.kind) e.word with
    | instr j => simp [hd] at h
    | reject r => simp [hd] at h

/-- Fetching inverts: an operation comes from the oldest pending event's word (R91). -/
theorem fetch_run {i : Instr} {t : State} (h : fetch s = .run i t) :
    ∃ e rest, s.inputs = e :: rest ∧ decode s.cfg (.event e.kind) e.word = .instr i ∧
      t = s.setInputs rest := by
  unfold fetch at h
  cases hs : s.inputs with
  | nil => simp [hs] at h
  | cons e rest =>
    simp only [hs] at h
    cases hd : decode s.cfg (.event e.kind) e.word with
    | instr j =>
      simp only [hd, Fetched.run.injEq] at h
      exact ⟨e, rest, rfl, by rw [← h.1]; exact hd, h.2.symm⟩
    | reject r => simp [hd] at h

/-- An event decodes to one of the three wire operations (R3, R91), and its kind says to which. -/
theorem decodeEvent_cases {kind : EventKind} {bytes : List Byte} {i : Instr}
    (h : decodeEvent kind bytes = .instr i) :
    (kind = .reset ∧ i = .reset) ∨ (kind = .poll ∧ ∃ clk si sd, i = .poll clk si sd) ∨
      (kind = .hostSetBusy ∧ ∃ b, i = .hostSetBusy b) := by
  unfold decodeEvent at h
  split at h
  case h_1 => exact .inl ⟨rfl, by simpa using h.symm⟩
  case h_4 =>
    split at h
    · exact .inr (.inl ⟨rfl, _, _, _, by simpa using h.symm⟩)
    · cases h
  case h_7 =>
    split at h
    · exact .inr (.inr ⟨rfl, _, by simpa using h.symm⟩)
    · cases h
  all_goals cases h

end Sys2Proof.Machine
end

