-- ==== Sys2Proof/Laws/Packet.lean ====
section
/-! SUPPORT. What appending, the packet commands and dispatch leave alone, and every way they can end (spec/43_packet_dispatch.md R210 to R216, spec/60_exceptions.md R298, R299). -/

namespace Sys2Proof.Machine

variable (s : State)

/-! A payload-level error sets one flag and emits one event (R289, R292 to R295). -/

theorem raise_checksumMismatch :
    raise .checksumMismatch s = emitError .checksumMismatch (setChecksumError s) := rfl

theorem raise_payloadOverflow :
    raise .payloadOverflow s = emitError .payloadOverflow (setPacketError s) := rfl

theorem raise_truncatedRun :
    raise .truncatedRun s = emitError .truncatedRun (setPacketError s) := rfl

theorem raise_malformedTileData :
    raise .malformedTileData s = emitError .malformedTileData (setPacketError s) := rfl

theorem raise_unsupportedCommand :
    raise .unsupportedCommand s = emitError .unsupportedCommand (setUnsupported s) := rfl

theorem raise_malformedPrintParameters :
    raise .malformedPrintParameters s =
      emitError .malformedPrintParameters (setPacketError s) := rfl

/-- Every way `APPEND` can end (R249). -/
theorem appendData_cases (data : List Byte) :
    (data.length % 320 ≠ 0 ∧
      appendData data s = emitError .malformedTileData (setPacketError s)) ∨
    (data.length % 320 = 0 ∧ s.cfg.maxHeight < s.rows.length + 8 * (data.length / 320) ∧
      appendData data s = emitError .payloadOverflow (setPacketError s)) ∨
    (data.length % 320 = 0 ∧ s.rows.length + 8 * (data.length / 320) ≤ s.cfg.maxHeight ∧
      appendData data s = s.setRows (s.rows ++ decodeTileRows data (data.length / 320))) := by
  unfold appendData
  simp only [Config.tileRowBytes, Config.tile]
  by_cases h : data.length % 320 = 0
  · by_cases h2 : s.cfg.maxHeight < s.rows.length + 8 * (data.length / 320)
    · exact .inr (.inl ⟨h, h2, by simp [h, h2, raise_payloadOverflow]⟩)
    · exact .inr (.inr ⟨h, Nat.le_of_not_lt h2, by simp [h, h2]⟩)
  · exact .inl ⟨h, by simp [h, raise_malformedTileData]⟩

/-- Every way `DATA` can end (R212). -/
theorem dataCommand_cases (pkt : Packet) :
    (∃ kind, dataCommand pkt s = emitError kind (setPacketError s) ∧
      kind ≠ .transportOverflow) ∨
    (∃ data, data.length % 320 = 0 ∧
      s.rows.length + 8 * (data.length / 320) ≤ s.cfg.maxHeight ∧
      dataCommand pkt s = s.setRows (s.rows ++ decodeTileRows data (data.length / 320))) := by
  have key : ∀ data, (∃ kind, appendData data s = emitError kind (setPacketError s) ∧
      kind ≠ .transportOverflow) ∨
      (∃ data', data'.length % 320 = 0 ∧
        s.rows.length + 8 * (data'.length / 320) ≤ s.cfg.maxHeight ∧
        appendData data s = s.setRows (s.rows ++ decodeTileRows data' (data'.length / 320))) := by
    intro data
    rcases appendData_cases s data with ⟨-, h⟩ | ⟨-, -, h⟩ | ⟨h1, h2, h⟩
    · exact .inl ⟨_, h, by decide⟩
    · exact .inl ⟨_, h, by decide⟩
    · exact .inr ⟨data, h1, h2, h⟩
  unfold dataCommand
  split
  · split
    · exact .inl ⟨_, raise_truncatedRun s, by decide⟩
    · exact key _
  · exact key _

/-- Every way `PRINT` can end (R213). -/
theorem printCommand_cases (pkt : Packet) :
    printCommand pkt s = emitError .malformedPrintParameters (setPacketError s) ∨
    ∃ image params, printCommand pkt s = emitImage image params (s.setRows []) := by
  unfold printCommand
  split
  · exact .inl rfl
  · exact .inr ⟨_, _, rfl⟩

/-- Every way dispatch can end: nothing, `INITIALIZE`, rows appended, one image, or one error
(R210, R298). -/
theorem dispatchPacket_cases (pkt : Packet) :
    dispatchPacket pkt s = s ∨
    (pkt.checksumOk = true ∧ pkt.command = .init ∧
      dispatchPacket pkt s = (clearFlags s).setRows []) ∨
    (pkt.checksumOk = true ∧ pkt.command = .data ∧ ∃ data, data.length % 320 = 0 ∧
      s.rows.length + 8 * (data.length / 320) ≤ s.cfg.maxHeight ∧
      dispatchPacket pkt s = s.setRows (s.rows ++ decodeTileRows data (data.length / 320))) ∨
    (pkt.checksumOk = true ∧ pkt.command = .print ∧ ∃ image params,
      dispatchPacket pkt s = emitImage image params (s.setRows [])) ∨
    (∃ kind, kind ≠ .transportOverflow ∧
      (dispatchPacket pkt s = emitError kind (setPacketError s) ∨
        dispatchPacket pkt s = emitError kind (setUnsupported s))) := by
  unfold dispatchPacket
  split
  case isFalse => exact .inl rfl
  case isTrue hok =>
    split
    case h_1 hc => exact .inr (.inl ⟨hok, hc, rfl⟩)
    case h_2 hc =>
      rcases dataCommand_cases s pkt with ⟨k, h, hk⟩ | ⟨data, h1, h2, h⟩
      · exact .inr (.inr (.inr (.inr ⟨k, hk, .inl h⟩)))
      · exact .inr (.inr (.inl ⟨hok, hc, data, h1, h2, h⟩))
    case h_3 hc =>
      rcases printCommand_cases s pkt with h | ⟨image, params, h⟩
      · exact .inr (.inr (.inr (.inr ⟨_, by decide, .inl h⟩)))
      · exact .inr (.inr (.inr (.inl ⟨hok, hc, image, params, h⟩)))
    case h_4 => exact .inl rfl
    case h_5 => exact .inr (.inr (.inr (.inr ⟨.unsupportedCommand, by decide, .inr rfl⟩)))

/-- Dispatch writes only flags, rows, trace and draws (R216). -/
theorem dispatchPacket_frameRule (pkt : Packet) :
    dispatchPacket pkt s =
      { s with
        flags := (dispatchPacket pkt s).flags, rows := (dispatchPacket pkt s).rows,
        out := (dispatchPacket pkt s).out, draws := (dispatchPacket pkt s).draws } := by
  rcases dispatchPacket_cases s pkt with h | ⟨-, -, h⟩ | ⟨-, -, _, -, -, h⟩ | ⟨-, -, _, _, h⟩ |
    ⟨_, -, h | h⟩ <;> rw [h] <;> rfl

@[simp] theorem dispatchPacket_cfg (pkt : Packet) : (dispatchPacket pkt s).cfg = s.cfg := by
  rw [dispatchPacket_frameRule]

@[simp] theorem dispatchPacket_transport (pkt : Packet) : (dispatchPacket pkt s).transport = s.transport := by
  rw [dispatchPacket_frameRule]

@[simp] theorem dispatchPacket_shifter (pkt : Packet) : (dispatchPacket pkt s).shifter = s.shifter := by
  rw [dispatchPacket_frameRule]

@[simp] theorem dispatchPacket_frame (pkt : Packet) : (dispatchPacket pkt s).frame = s.frame := by
  rw [dispatchPacket_frameRule]

@[simp] theorem dispatchPacket_inputs (pkt : Packet) : (dispatchPacket pkt s).inputs = s.inputs := by
  rw [dispatchPacket_frameRule]

@[simp] theorem dispatchPacket_ret (pkt : Packet) : (dispatchPacket pkt s).ret = s.ret := by
  rw [dispatchPacket_frameRule]

end Sys2Proof.Machine
end

