-- ==== Sys2Proof/Laws/Bytes.lean ====
section
/-! SUPPORT. What a byte handler can do and what it leaves alone (spec/42_packet_fsm.md R176 to R191). -/

namespace Sys2Proof.Machine

variable (s : State)

/-! Reading after `goto`, `replyThen` and the two parts of `RDCKS.HI`. -/

@[simp] theorem goto_frame (ps : PacketState) : (goto ps s).frame = { s.frame with ps } := rfl

@[simp] theorem replyThen_cfg (b : Byte) (ps : PacketState) : (replyThen b ps s).cfg = s.cfg := rfl

@[simp] theorem replyThen_frame (b : Byte) (ps : PacketState) :
    (replyThen b ps s).frame = { s.frame with ps } := rfl

@[simp] theorem replyThen_shifter (b : Byte) (ps : PacketState) :
    (replyThen b ps s).shifter = { s.shifter with txNext := b } := rfl

@[simp] theorem replyThen_flags (b : Byte) (ps : PacketState) :
    (replyThen b ps s).flags = s.flags := rfl

@[simp] theorem replyThen_rows (b : Byte) (ps : PacketState) :
    (replyThen b ps s).rows = s.rows := rfl

@[simp] theorem replyThen_out (b : Byte) (ps : PacketState) :
    (replyThen b ps s).out = s.out := rfl

/-- The two ways of `RDCKS.HI`'s second part (R189). -/
theorem recordMismatch_cases :
    (s.frame.ckOk = true ∧ recordMismatch s = s) ∨
    (s.frame.ckOk = false ∧
      recordMismatch s = emitError .checksumMismatch (setChecksumError s)) := by
  unfold recordMismatch
  split
  · exact .inl ⟨‹_›, rfl⟩
  · rename_i h
    exact .inr ⟨by simpa using h, rfl⟩

@[simp] theorem recordMismatch_frame : (recordMismatch s).frame = s.frame := by
  rcases recordMismatch_cases s with ⟨-, h⟩ | ⟨-, h⟩
  · rw [h]
  · rw [h]
    rfl

/-- A byte that is neither the second checksum byte nor the keep-alive byte writes only the in-flight
packet state; the other two also leave a byte pending; `RDCKS.HI` may set a flag with one event; `RDKA`
also does what dispatch does. -/
theorem byteIn_cases (b : Byte) :
    (∃ fr, byteIn b s = s.setFrame fr) ∨
    (∃ x fr, s.frame.ps = .readChecksum ∧
      byteIn b s = (s.setShifter { s.shifter with txNext := x }).setFrame fr) ∨
    (∃ x fr, s.frame.ps = .readChecksum ∧ byteIn b s =
      ((emitError .checksumMismatch (setChecksumError s)).setShifter
        { s.shifter with txNext := x }).setFrame fr) ∨
    (∃ x fr, s.frame.ps = .readKeepAlive ∧ byteIn b s =
      ((dispatchPacket (packetOf s) s).setShifter { s.shifter with txNext := x }).setFrame fr) := by
  unfold byteIn decodeByte
  cases hps : s.frame.ps with
  | idle => simp only; split <;> exact .inl ⟨_, rfl⟩
  | sync1 => simp only; split <;> exact .inl ⟨_, rfl⟩
  | sync2 => exact .inl ⟨_, rfl⟩
  | readCompression => exact .inl ⟨_, rfl⟩
  | readLength => simp only; split <;> exact .inl ⟨_, rfl⟩
  | readPayload => exact .inl ⟨_, rfl⟩
  | readChecksum =>
    simp only
    split
    · rcases recordMismatch_cases (compareChecksum b s) with ⟨-, h⟩ | ⟨-, h⟩
      · refine .inr (.inl ⟨s.cfg.keepAliveByte,
          { (compareChecksum b s).frame with ps := .readKeepAlive }, by trivial, ?_⟩)
        simp only [runByteRow, rdCksHi, h]
        rfl
      · refine .inr (.inr (.inl ⟨s.cfg.keepAliveByte,
          { (compareChecksum b s).frame with ps := .readKeepAlive }, by trivial, ?_⟩))
        simp only [runByteRow, rdCksHi, h]
        rfl
    · exact .inl ⟨_, rfl⟩
  | readKeepAlive =>
    refine .inr (.inr (.inr ⟨statusByte (dispatchPacket (packetOf s) s),
      { s.frame with ps := .idle }, by trivial, ?_⟩))
    simp [runByteRow, rdKa, replyThen, goto]

/-- What every byte leaves alone: the configuration, the transport, the pending events, `ret`, and of
the shifter everything but the pending byte. -/
theorem byteIn_keeps (b : Byte) :
    (byteIn b s).cfg = s.cfg ∧ (byteIn b s).transport = s.transport ∧
      (byteIn b s).inputs = s.inputs ∧ (byteIn b s).ret = s.ret ∧
      (byteIn b s).shifter = { s.shifter with txNext := (byteIn b s).shifter.txNext } := by
  rcases byteIn_cases s b with ⟨fr, h⟩ | ⟨x, fr, -, h⟩ | ⟨x, fr, -, h⟩ | ⟨x, fr, -, h⟩ <;>
    rw [h] <;> simp

@[simp] theorem byteIn_cfg (b : Byte) : (byteIn b s).cfg = s.cfg := (byteIn_keeps s b).1

@[simp] theorem byteIn_transport (b : Byte) : (byteIn b s).transport = s.transport :=
  (byteIn_keeps s b).2.1

@[simp] theorem byteIn_inputs (b : Byte) : (byteIn b s).inputs = s.inputs :=
  (byteIn_keeps s b).2.2.1

@[simp] theorem byteIn_ret (b : Byte) : (byteIn b s).ret = s.ret := (byteIn_keeps s b).2.2.2.1

/-- A byte leaves the shifter's registers and counters alone, but for the pending byte. -/
theorem byteIn_shifter (b : Byte) :
    (byteIn b s).shifter = { s.shifter with txNext := (byteIn b s).shifter.txNext } :=
  (byteIn_keeps s b).2.2.2.2

/-- The keep-alive byte (R191). -/
theorem byteIn_keepAlive (b : Byte) (h : s.frame.ps = .readKeepAlive) : byteIn b s = rdKa b s := by
  simp [byteIn, decodeByte, h, runByteRow]

/-- What a byte does to the in-flight packet state, state by state (R177 to R191). -/
theorem byteIn_frame (b : Byte) :
    (byteIn b s).frame =
      match s.frame.ps with
      | .idle => { s.frame with ps := if b = Config.sync1 then .sync1 else .idle }
      | .sync1 => { s.frame with ps := if b = Config.sync2 then .sync2 else .idle }
      | .sync2 => (sync2Cmd b s).frame
      | .readCompression => (rdComp b s).frame
      | .readLength => if s.frame.bidx then (rdLenHi b s).frame else (rdLenLo b s).frame
      | .readPayload => (rdPay b s).frame
      | .readChecksum =>
        if s.frame.bidx then { (compareChecksum b s).frame with ps := .readKeepAlive }
        else (rdCksLo b s).frame
      | .readKeepAlive => { s.frame with ps := .idle } := by
  unfold byteIn decodeByte
  cases hps : s.frame.ps with
  | idle =>
    simp only
    split
    · rfl
    · simp only [runByteRow, idleSkip]
      rw [← hps]
  | sync1 => simp only; split <;> rfl
  | sync2 => rfl
  | readCompression => rfl
  | readLength => simp only; split <;> rfl
  | readPayload => rfl
  | readChecksum =>
    simp only
    split
    · simp [runByteRow, rdCksHi]
    · rfl
  | readKeepAlive => simp [runByteRow, rdKa]

end Sys2Proof.Machine
end

