-- ==== Sys2Proof/Laws/Words.lean ====
section
/-! SUPPORT. Laws of the bit shifts, the little-endian fields, the running sum and the flag positions (spec/41_byte_shifter.md R160, R161, spec/30_encoding.md R96, R97, R106, spec/42_packet_fsm.md R187). -/

namespace Sys2Proof.Machine

/-- A shift keeps the low seven bits and takes the new bit at 0 (R160). -/
theorem shiftIn_eq (v : Byte) (b : Bit) :
    shiftIn v b = v.extractLsb' 0 7 ++ BitVec.ofBool b := by
  revert v b
  decide

/-- The bits of a shifted byte (R160). -/
theorem getLsbD_shiftIn (v : Byte) (b : Bit) (i : Nat) :
    (shiftIn v b).getLsbD i = if i = 0 then b else decide (i < 8) && v.getLsbD (i - 1) := by
  rw [shiftIn, BitVec.getLsbD_shiftConcat]
  rcases i with _ | i <;> simp

/-- Eight bits, most significant first, leave exactly that byte in the register (R160). -/
theorem shiftIn_wireBits (r b : Byte) : (wireBits b).foldl shiftIn r = b := by
  apply BitVec.eq_of_getLsbD_eq
  intro i hi
  simp only [wireBits, List.foldl_cons, List.foldl_nil, getLsbD_shiftIn]
  interval_cases i <;> simp

/-- After `k` shifts the top bit is bit `7 - k` of the byte (R161). -/
theorem msb_shiftIn_iterate (v : Byte) {k : Nat} (h : k < 8) :
    ((fun w => shiftIn w false)^[k] v).msb = v.getLsbD (7 - k) := by
  rw [BitVec.msb_eq_getLsbD_last]
  interval_cases k <;>
    simp only [Function.iterate_succ, Function.iterate_zero, Function.comp, id, getLsbD_shiftIn] <;>
    simp

/-- Low byte first, then high byte: the field is their concatenation (R96). -/
theorem setHighByte_setLowByte (h : Half) (lo hi : Byte) :
    setHighByte (setLowByte h lo) hi = hi ++ lo := by
  apply BitVec.eq_of_getLsbD_eq
  intro i hi'
  simp only [setHighByte, setLowByte, BitVec.getLsbD_append, BitVec.getLsbD_extractLsb']
  by_cases h8 : i < 8 <;> simp [h8]

/-- A concatenation is `low + 256 * high` (R97). -/
theorem toNat_append_bytes (hi lo : Byte) : (hi ++ lo : Half).toNat = lo.toNat + 256 * hi.toNat := by
  rw [BitVec.toNat_append, ← Nat.shiftLeft_add_eq_or_of_lt lo.isLt, Nat.shiftLeft_eq]
  omega

/-- A field is its high byte above its low byte (R63). -/
theorem highByte_append_lowByte (h : Half) : highByte h ++ lowByte h = h := by
  apply BitVec.eq_of_getLsbD_eq
  intro i hi
  simp only [highByte, lowByte, BitVec.getLsbD_append, BitVec.getLsbD_extractLsb']
  by_cases h8 : i < 8
  · simp [h8]
  · simp [h8, Nat.add_sub_cancel' (Nat.le_of_not_lt h8)]
    omega

@[simp] theorem lowByte_setLowByte (h : Half) (b : Byte) : lowByte (setLowByte h b) = b := by
  apply BitVec.eq_of_getLsbD_eq
  intro i hi
  simp only [lowByte, setLowByte, BitVec.getLsbD_append, BitVec.getLsbD_extractLsb']
  simp [hi]

@[simp] theorem highByte_setHighByte (h : Half) (b : Byte) : highByte (setHighByte h b) = b := by
  apply BitVec.eq_of_getLsbD_eq
  intro i hi
  simp only [highByte, setHighByte, BitVec.getLsbD_append, BitVec.getLsbD_extractLsb']
  simp [hi]

@[simp] theorem lowByte_setHighByte (h : Half) (b : Byte) : lowByte (setHighByte h b) = lowByte h := by
  apply BitVec.eq_of_getLsbD_eq
  intro i hi
  simp only [lowByte, setHighByte, BitVec.getLsbD_append, BitVec.getLsbD_extractLsb']
  simp [hi]

/-- A byte more is the sum and that byte (R187). -/
theorem byteSum_append (bytes : List Byte) (b : Byte) :
    byteSum (bytes ++ [b]) = addByte (byteSum bytes) b := by
  simp [byteSum, addByte]

theorem byteSum_singleton (b : Byte) : byteSum [b] = b.zeroExtend 16 := by
  simp [byteSum]

/-- A flag stands at its position and nowhere else (R106). -/
theorem getLsbD_flagAt (b : Bit) (pos p : Fin 8) :
    (flagAt b pos).getLsbD p.val = (b && decide (p = pos)) := by
  revert b pos p
  decide

end Sys2Proof.Machine
end

