-- ==== Sys2Proof/Laws/Wire.lean ====
section
/-! SUPPORT. The byte shifter, the backlog, `POLL` and `step`: what each leaves alone and every way it can end (spec/40_bit_transport.md R130 to R141, spec/41_byte_shifter.md R160 to R166). -/

namespace Sys2Proof.Machine

variable (s : State)

/-- `RX_BIT` before the eighth bit (R160). -/
theorem rxBit_early (v : Bit) (h : s.shifter.rxCnt ≠ 7) :
    rxBit v s = s.setShifter
      { s.shifter with rxSr := shiftIn s.shifter.rxSr v, rxCnt := s.shifter.rxCnt + 1 } := by
  simp [rxBit, h]

/-- `RX_BIT` on the eighth bit (R160, R163). -/
theorem rxBit_eighth (v : Bit) (h : s.shifter.rxCnt = 7) :
    rxBit v s = byteIn (shiftIn s.shifter.rxSr v)
      (s.setShifter { s.shifter with rxSr := shiftIn s.shifter.rxSr v, rxCnt := 0 }) := by
  simp [rxBit, h]

/-- `TX_BIT` before the eighth bit (R161). -/
theorem txBit_early (h : s.shifter.txCnt ≠ 7) :
    txBit s = s.setShifter
      { s.shifter with
        txCnt := s.shifter.txCnt + 1, txSr := shiftIn s.shifter.txSr false } := by
  simp [txBit, h]

/-- `TX_BIT` on the eighth bit (R161, R164). -/
theorem txBit_eighth (h : s.shifter.txCnt = 7) :
    txBit s = s.setShifter
      { s.shifter with txCnt := 0, txSr := s.shifter.txNext, txNext := Config.txFillByte } := by
  simp [txBit, h]

/-- `TX_BIT` writes the shifter only. -/
theorem txBit_keeps : txBit s = s.setShifter (txBit s).shifter := by
  unfold txBit
  split <;> rfl

/-- The inbound counter advances by one modulo 8 (R28). -/
theorem rxBit_rxCnt (v : Bit) : (rxBit v s).shifter.rxCnt = s.shifter.rxCnt + 1 := by
  by_cases h : s.shifter.rxCnt = 7
  · rw [rxBit_eighth s v h, byteIn_shifter, h]
    rfl
  · rw [rxBit_early s v h]
    rfl

/-- `RX_BIT` leaves the outbound register and counter alone. -/
theorem rxBit_tx (v : Bit) : (rxBit v s).shifter.txCnt = s.shifter.txCnt ∧
    (rxBit v s).shifter.txSr = s.shifter.txSr := by
  by_cases h : s.shifter.rxCnt = 7
  · rw [rxBit_eighth s v h, byteIn_shifter]
    exact ⟨rfl, rfl⟩
  · rw [rxBit_early s v h]
    exact ⟨rfl, rfl⟩

/-- The outbound counter advances by one modulo 8 (R28). -/
theorem txBit_txCnt : (txBit s).shifter.txCnt = s.shifter.txCnt + 1 := by
  by_cases h : s.shifter.txCnt = 7
  · rw [txBit_eighth s h, h]
    rfl
  · rw [txBit_early s h]
    rfl

/-- `TX_BIT` leaves the inbound counter alone. -/
theorem txBit_rxCnt : (txBit s).shifter.rxCnt = s.shifter.rxCnt := by
  unfold txBit
  split <;> rfl

/-- Every bit leaves configuration, transport, pending events and `ret` alone. -/
theorem rxBit_keeps (v : Bit) : (rxBit v s).cfg = s.cfg ∧ (rxBit v s).transport = s.transport ∧
    (rxBit v s).inputs = s.inputs ∧ (rxBit v s).ret = s.ret := by
  by_cases h : s.shifter.rxCnt = 7
  · rw [rxBit_eighth s v h]
    simp
  · rw [rxBit_early s v h]
    simp

@[simp] theorem shiftEdge_cfg (v : Bit) : (shiftEdge v s).cfg = s.cfg := by
  rw [shiftEdge, txBit_keeps]
  exact (rxBit_keeps s v).1

@[simp] theorem shiftEdge_transport (v : Bit) : (shiftEdge v s).transport = s.transport := by
  rw [shiftEdge, txBit_keeps]
  exact (rxBit_keeps s v).2.1

@[simp] theorem shiftEdge_inputs (v : Bit) : (shiftEdge v s).inputs = s.inputs := by
  rw [shiftEdge, txBit_keeps]
  exact (rxBit_keeps s v).2.2.1

@[simp] theorem shiftEdge_ret (v : Bit) : (shiftEdge v s).ret = s.ret := by
  rw [shiftEdge, txBit_keeps]
  exact (rxBit_keeps s v).2.2.2

/-- An edge keeps the two counters equal (R28, R165). -/
theorem shiftEdge_counters (v : Bit) (h : s.shifter.rxCnt = s.shifter.txCnt) :
    (shiftEdge v s).shifter.rxCnt = (shiftEdge v s).shifter.txCnt := by
  rw [shiftEdge, txBit_rxCnt, txBit_txCnt, rxBit_rxCnt, (rxBit_tx s v).1, h]

/-- An edge shifts only the shifter before the eighth bit; on the eighth it is the handler of the byte
completed, between two such shifts (R160, R162). -/
theorem shiftEdge_cases (v : Bit) :
    (s.shifter.rxCnt ≠ 7 ∧ ∃ sh, shiftEdge v s = s.setShifter sh) ∨
    (s.shifter.rxCnt = 7 ∧ ∃ sh sh', shiftEdge v s =
      (byteIn (s.shifter.rxSr.extractLsb' 0 7 ++ BitVec.ofBool v) (s.setShifter sh)).setShifter
        sh') := by
  rw [shiftEdge, txBit_keeps, ← shiftIn_eq]
  by_cases h : s.shifter.rxCnt = 7
  · rw [rxBit_eighth s v h]
    exact .inr ⟨h, _, _, rfl⟩
  · rw [rxBit_early s v h]
    exact .inl ⟨h, _, rfl⟩

/-- Draining runs one edge per queued bit and empties the backlog; an invariant of edges and of the
backlog's own write is kept by it (R136). -/
theorem drainLoop_invariant (P : State → Prop)
    (hpop : ∀ u rest, P u → P (u.setTransport { u.transport with fifo := rest }))
    (hedge : ∀ u v, P u → P (shiftEdge v u)) :
    ∀ n u, P u → P (drainLoop n u) := by
  intro n
  induction n with
  | zero => exact fun u h => h
  | succ n ih =>
    intro u h
    unfold drainLoop
    cases u.transport.fifo with
    | nil => exact h
    | cons b rest => exact ih _ (hedge _ _ (hpop _ _ h))

/-- Enough turns empty the backlog (R136). -/
theorem drainLoop_empties : ∀ n u, u.transport.fifo.length ≤ n →
    (drainLoop n u).transport.fifo = [] := by
  intro n
  induction n with
  | zero => exact fun u h => List.eq_nil_of_length_eq_zero (Nat.le_zero.mp h)
  | succ n ih =>
    intro u h
    unfold drainLoop
    cases hf : u.transport.fifo with
    | nil => exact hf
    | cons b rest =>
      apply ih
      rw [hf] at h
      simpa using h

/-- After `DRAIN` the backlog is empty (R136). -/
theorem drainBacklog_fifo : (drainBacklog s).transport.fifo = [] :=
  drainLoop_empties _ _ (Nat.le_refl _)

/-- Draining an empty backlog does nothing (R136). -/
theorem drainBacklog_nil (h : s.transport.fifo = []) : drainBacklog s = s := by
  simp [drainBacklog, h, drainLoop]

/-- Sampling into an empty backlog of a legal configuration and draining is one edge (R136). -/
theorem drain_sample (si : Bit) (hd : 1 ≤ s.cfg.backlogDepth) (hf : s.transport.fifo = []) :
    drainBacklog (sampleBit si s) = shiftEdge si s := by
  have h : ¬ s.cfg.backlogDepth ≤ s.transport.fifo.length := by
    rw [hf]
    exact Nat.not_le.mpr hd
  have he : s.setTransport { s.transport with fifo := [] } = s := by
    rw [← hf]
    rfl
  rw [sampleBit, if_neg h, hf]
  exact congrArg (shiftEdge si) he

/-- A legal configuration has a backlog (R7). -/
theorem Cfg.wf_backlog {c : Cfg} (h : c.wf = true) : 1 ≤ c.backlogDepth := by
  simp only [Cfg.wf, Bool.and_eq_true, decide_eq_true_eq] at h
  exact h.1.2

/-- The ways of the select monitor: a write of the idle count, or the bus reset (R131). -/
theorem selectMonitor_cases (sd : Bit) :
    (¬FiresBusReset s sd ∧
      ∃ n, (s.transport.sdCnt ≤ s.cfg.sdIdleThreshold + 1 → n ≤ s.cfg.sdIdleThreshold + 1) ∧
        selectMonitor sd s = writeSdCnt n s) ∨
    (FiresBusReset s sd ∧
      selectMonitor sd s = resetBus (writeSdCnt (s.cfg.sdIdleThreshold + 1) s)) := by
  unfold selectMonitor
  split
  · rename_i ha
    exact .inl ⟨fun h => h.1 ha, 0, fun _ => Nat.zero_le _, rfl⟩
  · rename_i ha
    split
    · split
      · rename_i h
        exact .inr ⟨⟨ha, Nat.succ.inj h⟩, by rw [h]⟩
      · rename_i h hne
        exact .inl ⟨fun hf => hne (congrArg _ hf.2), _, fun _ => Nat.succ_le_succ h, rfl⟩
    · rename_i h
      exact .inl ⟨fun hf => h hf.2.le, s.transport.sdCnt, id, rfl⟩

/-- What edge detection answers (R132). -/
theorem isActiveEdge_iff (clk : Bit) : isActiveEdge clk s = true ↔ FindsEdge s clk := by
  unfold isActiveEdge FindsEdge
  cases s.transport.clkPrev with
  | none => simp
  | some b => cases b <;> cases clk <;> cases s.cfg.activeEdge <;> simp [activeLevel]

/-- The select monitor leaves what edge detection reads alone (R131, R132). -/
theorem selectMonitor_isActiveEdge (clk sd : Bit) :
    isActiveEdge clk (selectMonitor sd s) = isActiveEdge clk s := by
  rcases selectMonitor_cases s sd with ⟨-, n, -, h⟩ | ⟨-, h⟩ <;> rw [h] <;> rfl

/-- `POLL` from an empty backlog under a legal configuration: the monitor, the clock recorded, and one
edge if there is an active one (R130, R136). -/
theorem pollLines_cases (clk si sd : Bit) (hd : 1 ≤ s.cfg.backlogDepth)
    (hf : s.transport.fifo = []) :
    (¬FindsEdge s clk ∧ pollLines clk si sd s = recordClock clk (selectMonitor sd s)) ∨
    (FindsEdge s clk ∧
      pollLines clk si sd s = shiftEdge si (recordClock clk (selectMonitor sd s))) := by
  rw [pollLines, ← isActiveEdge_iff, ← selectMonitor_isActiveEdge s clk sd]
  by_cases he : isActiveEdge clk (selectMonitor sd s)
  · refine .inr ⟨he, ?_⟩
    simp only [he, if_true]
    apply drain_sample
    · rcases selectMonitor_cases s sd with ⟨-, n, -, h⟩ | ⟨-, h⟩ <;> rw [h] <;> exact hd
    · rcases selectMonitor_cases s sd with ⟨-, n, -, h⟩ | ⟨-, h⟩ <;> rw [h]
      · exact hf
      · rfl
  · refine .inl ⟨he, ?_⟩
    simp only [he, if_false, Bool.false_eq_true]

/-- A state has at most one next event (R11). -/
theorem NextEvent.unique {s : State} {i j : Instr} (h : NextEvent s i) (h' : NextEvent s j) :
    i = j := by
  obtain ⟨e, rest, hin, hi⟩ := h
  obtain ⟨e', rest', hin', hj⟩ := h'
  rw [hin] at hin'
  cases hin'
  exact Decoded.instr.inj (hi.symm.trans hj)

/-- The next event is a `RESET` only if its kind says so (R91). -/
theorem NextEvent.reset_kind {s : State} (h : NextEvent s .reset) :
    ∃ e rest, s.inputs = e :: rest ∧ e.kind = .reset := by
  obtain ⟨e, rest, hin, hdec⟩ := h
  refine ⟨e, rest, hin, ?_⟩
  rcases decodeEvent_cases hdec with ⟨hk, -⟩ | ⟨-, _, _, _, h⟩ | ⟨-, _, h⟩
  · exact hk
  · cases h
  · cases h

/-- An event that completes a byte does not force `Idle` (R131, R160). -/
theorem CompletesByte.not_forcesIdle {s : State} {b : Byte} (h : CompletesByte s b) :
    ¬ForcesIdle s := by
  obtain ⟨clk, si, sd, he, -, hn, -⟩ := h
  rintro (h | ⟨_, _, _, h, hf⟩)
  · cases he.unique h
  · cases he.unique h
    exact hn hf

/-- The byte an event completes is one byte (R160). -/
theorem CompletesByte.unique {s : State} {b c : Byte} (h : CompletesByte s b)
    (h' : CompletesByte s c) : b = c := by
  obtain ⟨_, _, _, he, -, -, -, rfl⟩ := h
  obtain ⟨_, _, _, he', -, -, -, rfl⟩ := h'
  cases he.unique he'
  rfl

/-- Everything a step can be (R11): held with no event pending, or one of the three wire events on the
state with that event taken, under a legal configuration. -/
theorem step_next {t : State} (h : step s = .next t) :
    s.cfg.wf = true ∧
    (s.inputs = [] ∧ t = s ∨ ∃ e rest, s.inputs = e :: rest ∧
      ((NextEvent s .reset ∧ t = resetAll (s.setInputs rest)) ∨
        (∃ clk si sd, NextEvent s (.poll clk si sd) ∧
          t = pollLines clk si sd (s.setInputs rest)) ∨
        (∃ b, NextEvent s (.hostSetBusy b) ∧ t = writeBusy b (s.setInputs rest)))) := by
  unfold step at h
  split at h
  case isFalse => cases h
  case isTrue hw =>
    refine ⟨hw, ?_⟩
    split at h
    case h_1 hfetch => exact .inl ⟨fetch_idle s hfetch, (Host.Outcome.next.inj h).symm⟩
    case h_2 => cases h
    case h_3 i u hfetch =>
      obtain ⟨e, rest, hin, hdec, rfl⟩ := fetch_run s hfetch
      refine .inr ⟨e, rest, hin, ?_⟩
      have hn : NextEvent s i := ⟨e, rest, hin, hdec⟩
      rcases decodeEvent_cases hdec with ⟨-, rfl⟩ | ⟨-, clk, si, sd, rfl⟩ | ⟨-, b, rfl⟩
      · exact .inl ⟨hn, (Host.Outcome.next.inj h).symm⟩
      · exact .inr (.inl ⟨_, _, _, hn, (Host.Outcome.next.inj h).symm⟩)
      · exact .inr (.inr ⟨_, hn, (Host.Outcome.next.inj h).symm⟩)

end Sys2Proof.Machine
end

