-- ==== Sys2Proof/Laws/Commute.lean ====
section
/-! SUPPORT. Bits and bytes neither read nor write the bit transport, and read the flags only for the status byte: writing the transport commutes with them, and other flags change only flags and reply (spec/42_packet_fsm.md R188, spec/46_session_controller.md R272). -/

namespace Sys2Proof.Machine

variable (s : State) (x : Transport) (z : Shifter)

/-- Appending does not look at the link (R216). -/
theorem appendData_setLink (data : List Byte) :
    appendData data ((s.setTransport x).setShifter z) =
      ((appendData data s).setTransport x).setShifter z := by
  unfold appendData
  simp only [State.setTransport_cfg, State.setTransport_rows, State.setShifter_cfg,
    State.setShifter_rows]
  by_cases h : data.length % Config.tileRowBytes ≠ 0
  · simp only [h, if_true, ne_eq, not_false_eq_true]
    rfl
  · simp only [h, if_false]
    by_cases h2 : s.cfg.maxHeight <
        s.rows.length + Config.tile * (data.length / Config.tileRowBytes)
    · simp only [h2, if_true]
      rfl
    · simp only [h2, if_false]
      rfl

/-- Dispatch does not look at the link (R216). -/
theorem dispatchPacket_setLink (pkt : Packet) :
    dispatchPacket pkt ((s.setTransport x).setShifter z) =
      ((dispatchPacket pkt s).setTransport x).setShifter z := by
  unfold dispatchPacket
  cases pkt.checksumOk with
  | false => rfl
  | true =>
    simp only [if_true]
    cases pkt.command with
    | init => rfl
    | status => rfl
    | unknown => rfl
    | data =>
      simp only [dataCommand]
      cases pkt.compressed with
      | false => exact appendData_setLink s x z _
      | true =>
        simp only [if_true]
        cases decompressBytes pkt.payload with
        | none => rfl
        | some data => exact appendData_setLink s x z _
    | print =>
      simp only [printCommand]
      cases parsePrintParameters pkt.payload with
      | none => rfl
      | some params => rfl

/-- Dispatch does not look at the transport (R216). -/
theorem dispatchPacket_setTransport (pkt : Packet) :
    dispatchPacket pkt (s.setTransport x) = (dispatchPacket pkt s).setTransport x := by
  have e : ((dispatchPacket pkt s).setTransport x).setShifter s.shifter =
      (dispatchPacket pkt s).setTransport x := by
    rw [← dispatchPacket_shifter s pkt]
    rfl
  exact (dispatchPacket_setLink s x s.shifter pkt).trans e

/-- Dispatch does not look at the shifter (R216). -/
theorem dispatchPacket_setShifter (pkt : Packet) :
    dispatchPacket pkt (s.setShifter z) = (dispatchPacket pkt s).setShifter z := by
  have e : (dispatchPacket pkt s).setTransport s.transport = dispatchPacket pkt s := by
    rw [← dispatchPacket_transport s pkt]
    rfl
  exact (dispatchPacket_setLink s s.transport z pkt).trans (congrArg (State.setShifter · z) e)

/-- A byte does not look at the transport (R188). -/
theorem byteIn_setTransport (b : Byte) :
    byteIn b (s.setTransport x) = (byteIn b s).setTransport x := by
  unfold byteIn
  simp only [State.setTransport_frame]
  cases decodeByte s.frame.ps s.frame.bidx b with
  | rdCksHi b =>
    have hc : compareChecksum b (s.setTransport x) = (compareChecksum b s).setTransport x := rfl
    simp only [runByteRow, rdCksHi, hc, recordMismatch, State.setTransport_frame]
    cases (compareChecksum b s).frame.ckOk <;> rfl
  | rdKa b =>
    have hp : packetOf (s.setTransport x) = packetOf s := rfl
    simp only [runByteRow, rdKa, hp, dispatchPacket_setTransport]
    rfl
  | _ => rfl

/-- A byte looks at nothing of the shifter and writes only its pending byte (R189, R191). -/
theorem byteIn_setShifter (b : Byte) (h : z.txNext = s.shifter.txNext) :
    byteIn b (s.setShifter z) =
      (byteIn b s).setShifter { z with txNext := (byteIn b s).shifter.txNext } := by
  have hz : { z with txNext := s.shifter.txNext } = z := by rw [← h]
  unfold byteIn
  simp only [State.setShifter_frame]
  cases decodeByte s.frame.ps s.frame.bidx b with
  | rdCksHi b =>
    have hc : compareChecksum b (s.setShifter z) = (compareChecksum b s).setShifter z := rfl
    simp only [runByteRow, rdCksHi, hc, recordMismatch, State.setShifter_frame]
    cases (compareChecksum b s).frame.ckOk <;> rfl
  | rdKa b =>
    have hp : packetOf (s.setShifter z) = packetOf s := rfl
    simp only [runByteRow, rdKa, hp, dispatchPacket_setShifter]
    rfl
  | _ =>
    change _ = State.setShifter _ { z with txNext := s.shifter.txNext }
    rw [hz]
    rfl

/-- An edge does not look at the transport (R160, R161). -/
theorem shiftEdge_setTransport (v : Bit) :
    shiftEdge v (s.setTransport x) = (shiftEdge v s).setTransport x := by
  have h1 : rxBit v (s.setTransport x) = (rxBit v s).setTransport x := by
    by_cases h : s.shifter.rxCnt = 7
    · rw [rxBit_eighth s v h, ← byteIn_setTransport, rxBit_eighth (s.setTransport x) v h]
      rfl
    · rw [rxBit_early s v h, rxBit_early (s.setTransport x) v h]
      rfl
  have h2 (u : State) : txBit (u.setTransport x) = (txBit u).setTransport x := by
    by_cases h : u.shifter.txCnt = 7
    · rw [txBit_eighth u h, txBit_eighth (u.setTransport x) h]
      rfl
    · rw [txBit_early u h, txBit_early (u.setTransport x) h]
      rfl
  rw [shiftEdge, shiftEdge, h1, h2]

/-- The loop of `DRAIN` is a fold of edges over the queued bits, oldest first (R136). -/
theorem drainLoop_eq_foldl : ∀ (bits : List SampledBit) (u : State), u.transport.fifo = bits →
    drainLoop bits.length u =
      bits.foldl (fun t b => shiftEdge b.value t)
        (u.setTransport { u.transport with fifo := [] })
  | [], u, h => by
    change u = u.setTransport { u.transport with fifo := [] }
    rw [← h]
    rfl
  | b :: bits, u, h => by
    simp only [List.length_cons, drainLoop, h, List.foldl_cons]
    rw [drainLoop_eq_foldl bits _ (by simp)]
    simp [shiftEdge_setTransport]

variable (f : Flags)

/-- Appending with other flags: the same, but for the flags (R272). -/
theorem appendData_setFlags (data : List Byte) :
    ∃ g, appendData data (s.setFlags f) = (appendData data s).setFlags g := by
  rcases appendData_cases s data with ⟨h, e⟩ | ⟨h, h2, e⟩ | ⟨h, h2, e⟩ <;>
    rcases appendData_cases (s.setFlags f) data with ⟨k, e'⟩ | ⟨k, k2, e'⟩ | ⟨k, k2, e'⟩ <;>
    first
    | exact absurd k h
    | exact absurd h k
    | exact absurd k2 (Nat.not_lt.mpr h2)
    | exact absurd h2 (Nat.not_lt.mpr k2)
    | exact ⟨_, by rw [e, e']; rfl⟩

/-- Dispatch with other flags: the same, but for the flags (R272). -/
theorem dispatchPacket_setFlags (pkt : Packet) :
    ∃ g, dispatchPacket pkt (s.setFlags f) = (dispatchPacket pkt s).setFlags g := by
  unfold dispatchPacket
  cases pkt.checksumOk with
  | false => exact ⟨f, rfl⟩
  | true =>
    simp only [if_true]
    cases pkt.command with
    | init => exact ⟨Flags.reset, rfl⟩
    | status => exact ⟨f, rfl⟩
    | unknown => exact ⟨_, rfl⟩
    | data =>
      simp only [dataCommand]
      cases pkt.compressed with
      | false => exact appendData_setFlags s f _
      | true =>
        simp only [if_true]
        cases decompressBytes pkt.payload with
        | none => exact ⟨_, rfl⟩
        | some data => exact appendData_setFlags s f _
    | print =>
      simp only [printCommand]
      cases parsePrintParameters pkt.payload with
      | none => exact ⟨_, rfl⟩
      | some params => exact ⟨f, rfl⟩

/-- `t` is `s` but for the flags and the byte being sent: what R272 lets the flags reach. -/
def SameButReply (s t : State) : Prop :=
  ∃ g a y, t = (s.setFlags g).setShifter { s.shifter with txSr := a, txNext := y }

/-- A byte keeps two states the same but for the reply (R272). -/
theorem byteIn_sameButReply (b : Byte) {s t : State} (h : SameButReply s t) :
    SameButReply (byteIn b s) (byteIn b t) := by
  obtain ⟨f, a, y, rfl⟩ := h
  unfold byteIn
  simp only [State.setShifter_frame, State.setFlags_frame]
  cases decodeByte s.frame.ps s.frame.bidx b with
  | rdCksHi b =>
    simp only [runByteRow, rdCksHi, recordMismatch]
    have hc : (compareChecksum b
        ((s.setFlags f).setShifter { s.shifter with txSr := a, txNext := y })).frame =
        (compareChecksum b s).frame := rfl
    rw [hc]
    cases (compareChecksum b s).frame.ckOk
    · exact ⟨_, a, s.cfg.keepAliveByte, rfl⟩
    · exact ⟨f, a, s.cfg.keepAliveByte, rfl⟩
  | rdKa b =>
    obtain ⟨g, hg⟩ := dispatchPacket_setFlags s f (packetOf s)
    have hp : packetOf ((s.setFlags f).setShifter
        { s.shifter with txSr := a, txNext := y }) = packetOf s := rfl
    simp only [runByteRow, rdKa, hp, dispatchPacket_setShifter, hg]
    refine ⟨g, a, statusByte ((dispatchPacket (packetOf s) s).setFlags g), ?_⟩
    simp only [replyThen, goto]
    simp
    rfl
  | _ => exact ⟨f, a, y, rfl⟩

/-- `RX_BIT` keeps two states the same but for the reply (R272). -/
theorem rxBit_sameButReply (v : Bit) {s t : State} (h : SameButReply s t) :
    SameButReply (rxBit v s) (rxBit v t) := by
  obtain ⟨g, a, y, ht⟩ := h
  have hc : t.shifter.rxCnt = s.shifter.rxCnt := by rw [ht]; rfl
  by_cases h : s.shifter.rxCnt = 7
  · rw [rxBit_eighth s v h, rxBit_eighth t v (hc.trans h), ht]
    exact byteIn_sameButReply _ ⟨g, a, y, rfl⟩
  · rw [rxBit_early s v h, rxBit_early t v (hc ▸ h), ht]
    exact ⟨g, a, y, rfl⟩

/-- `TX_BIT` keeps two states the same but for the reply (R272). -/
theorem txBit_sameButReply {s t : State} (h : SameButReply s t) :
    SameButReply (txBit s) (txBit t) := by
  obtain ⟨g, a, y, ht⟩ := h
  have hc : t.shifter.txCnt = s.shifter.txCnt := by rw [ht]; rfl
  by_cases h : s.shifter.txCnt = 7
  · rw [txBit_eighth s h, txBit_eighth t (hc.trans h), ht]
    exact ⟨g, y, Config.txFillByte, rfl⟩
  · rw [txBit_early s h, txBit_early t (hc ▸ h), ht]
    exact ⟨g, shiftIn a false, y, rfl⟩

/-- An edge keeps two states the same but for the reply (R272). -/
theorem shiftEdge_sameButReply (v : Bit) {s t : State} (h : SameButReply s t) :
    SameButReply (shiftEdge v s) (shiftEdge v t) :=
  txBit_sameButReply (rxBit_sameButReply v h)

end Sys2Proof.Machine
end

