-- ==== Sys2Proof/Laws/Image.lean ====
section
/-! SUPPORT. Sizes and pixels of decoded tile rows and of the finished image (spec/45_image_assembler.md R251 to R255, spec/30_encoding.md R110). -/

namespace Sys2Proof.Machine

@[simp] theorem decodeTileRow_length (d : List Byte) : (decodeTileRow d).length = 8 := by
  simp [decodeTileRow, Config.tile]

/-- Every decoded pixel row has 160 pixels (R41). -/
theorem decodeTileRow_width {d : List Byte} {r : PixelRow} (h : r ∈ decodeTileRow d) :
    r.length = 160 := by
  simp only [decodeTileRow, List.mem_map] at h
  obtain ⟨_, _, rfl⟩ := h
  simp [Config.width]

/-- A pixel row of a tile row (R252). -/
theorem decodeTileRow_getElem? (d : List Byte) {r : Nat} (h : r < 8) :
    (decodeTileRow d)[r]? = some ((List.range 160).map fun x => tilePixel d r x) := by
  simp [decodeTileRow, Config.tile, Config.width, List.getElem?_range h]

/-- Eight pixel rows per tile row (R251). -/
@[simp] theorem decodeTileRows_length (data : List Byte) (count : Nat) :
    (decodeTileRows data count).length = 8 * count := by
  simp [decodeTileRows, List.length_flatMap, Nat.mul_comm]

/-- Every appended pixel row has 160 pixels (R41). -/
theorem decodeTileRows_width {data : List Byte} {count : Nat} {r : PixelRow}
    (h : r ∈ decodeTileRows data count) : r.length = 160 := by
  simp only [decodeTileRows, List.mem_flatMap] at h
  obtain ⟨_, _, h⟩ := h
  exact decodeTileRow_width h

/-- Row `r` of tile row `k` of a payload (R251). -/
theorem decodeTileRows_getElem? (data : List Byte) {count k r : Nat} (hk : k < count)
    (hr : r < 8) : (decodeTileRows data count)[8 * k + r]? =
      (decodeTileRow ((data.drop (320 * k)).take 320))[r]? := by
  induction count with
  | zero => omega
  | succ count ih =>
    have hs : decodeTileRows data (count + 1) = decodeTileRows data count ++
        decodeTileRow ((data.drop (320 * count)).take 320) := by
      simp [decodeTileRows, List.range_succ, Config.tileRowBytes]
    rw [hs]
    by_cases hlt : k < count
    · rw [List.getElem?_append_left (by simp; omega), ih hlt]
    · have : k = count := by omega
      subst this
      rw [List.getElem?_append_right (by simp)]
      simp

/-- A pixel of a tile row, by tile column and column in the tile (R252). -/
theorem tilePixel_eq (d : List Byte) (r : Nat) {j c : Nat} (hc : c < 8) :
    tilePixel d r (8 * j + c) =
      BitVec.ofBool ((d.getD (16 * j + 2 * r + 1) 0).getLsbD (7 - c)) ++
        BitVec.ofBool ((d.getD (16 * j + 2 * r) 0).getLsbD (7 - c)) := by
  have h1 : (8 * j + c) / 8 = j := by omega
  have h2 : (8 * j + c) % 8 = c := by omega
  simp only [tilePixel, h1, h2]

/-- A payload byte inside its tile row (R246). -/
theorem getElem?_tileRow (data : List Byte) (k : Nat) {i : Nat} (h : i < 320) :
    ((data.drop (320 * k)).take 320)[i]? = data[320 * k + i]? := by
  rw [List.getElem?_take, if_pos h, List.getElem?_drop]

/-- The finished image has as many rows as its height says (R253). -/
theorem finishedImage_height (c : Cfg) (params : PrintParameters) (rows : List PixelRow) :
    (finishedImage c params rows).height = (finishedImage c params rows).rows.length := rfl

/-- An image of a buffer that holds rows (R253). -/
theorem finishedRows_of_ne_nil (c : Cfg) (params : PrintParameters) {rows : List PixelRow}
    (h : rows ≠ []) : finishedRows c params rows =
      blankRows (params.marginBefore.toNat * c.marginUnitRows) ++ rows ++
        blankRows (params.marginAfter.toNat * c.marginUnitRows) := by
  cases rows with
  | nil => exact absurd rfl h
  | cons r rest => rfl

/-- Margins keep the width: a buffer of 160-pixel rows gives a well-formed image (R43, R253). -/
theorem finishedImage_wf (c : Cfg) (params : PrintParameters) {rows : List PixelRow}
    (h : ∀ r ∈ rows, r.length = 160) : (finishedImage c params rows).wf = true := by
  have hr : ∀ r ∈ finishedRows c params rows, r.length = 160 := by
    cases rows with
    | nil => simp [finishedRows]
    | cons r0 rest =>
      intro r hr
      rw [finishedRows_of_ne_nil c params (by simp)] at hr
      simp only [List.mem_append, blankRows, List.mem_replicate] at hr
      rcases hr with (⟨-, rfl⟩ | hr) | ⟨-, rfl⟩
      · exact List.length_replicate
      · exact h r hr
      · exact List.length_replicate
  simpa [FinishedImage.wf, finishedImage, Config.width, Config.bpp] using hr

end Sys2Proof.Machine
end

