-- ==== Sys2Proof/Laws/Runs.lean ====
section
/-! SUPPORT. Runs of operations: sequences of bits and bytes as folds, and eight bits as one byte (spec/41_byte_shifter.md R160 to R162). -/

namespace Sys2Proof.Machine

/-- A run of one kind of operation that always completes is a fold. -/
theorem execAll_map {α : Type} (op : α → Instr) (f : α → State → State)
    (h : ∀ a s, exec (op a) s = .next (f a s)) :
    ∀ (l : List α) (s : State), execAll (l.map op) s = .next (l.foldl (fun u a => f a u) s)
  | [], _ => rfl
  | a :: l, s => by
    simp only [List.map_cons, execAll, h, List.foldl_cons]
    exact execAll_map op f h l _

/-- A run of bytes (R176). -/
theorem execAll_byteIn (l : List Byte) (s : State) :
    execAll (l.map .byteIn) s = .next (l.foldl (fun u b => byteIn b u) s) :=
  execAll_map .byteIn byteIn (fun _ _ => rfl) l s

/-- Two runs one after the other. -/
theorem execAll_append (l k : List Instr) {s t : State} (h : execAll l s = .next t) :
    execAll (l ++ k) s = execAll k t := by
  induction l generalizing s with
  | nil =>
    cases h
    rfl
  | cons i l ih =>
    simp only [List.cons_append, execAll] at h ⊢
    cases hi : exec i s with
    | next u =>
      rw [hi] at h
      exact ih h
    | fault r =>
      rw [hi] at h
      cases h
    | refused r =>
      rw [hi] at h
      cases h

/-- Seven inbound bits from a byte boundary (R160). -/
theorem rxBit_seven (s : State) (b6 b5 b4 b3 b2 b1 b0 : Bit) (h : s.shifter.rxCnt = 0) :
    [b6, b5, b4, b3, b2, b1, b0].foldl (fun u v => rxBit v u) s =
      s.setShifter
        { s.shifter with
          rxSr := [b6, b5, b4, b3, b2, b1, b0].foldl shiftIn s.shifter.rxSr, rxCnt := 7 } := by
  simp [rxBit, h]

/-- `k` outbound bits, fewer than eight, from a byte boundary (R161). -/
theorem txBit_iterate (s : State) {k : Nat} (hk : k < 8) (h : s.shifter.txCnt = 0) :
    txBit^[k] s = s.setShifter
      { s.shifter with
        txSr := (fun w => shiftIn w false)^[k] s.shifter.txSr, txCnt := ⟨k, hk⟩ } := by
  induction k with
  | zero =>
    change s = s.setShifter { s.shifter with txCnt := 0 }
    rw [← h]
    rfl
  | succ k ih =>
    rw [Function.iterate_succ_apply', ih (by omega), txBit_early]
    · simp only [State.setShifter_shifter, State.setShifter_setShifter,
        Function.iterate_succ_apply']
      congr 2
      exact Fin.ext (by simp [Fin.val_add]; omega)
    · intro h7
      have := congrArg Fin.val h7
      simp at this
      omega

/-- A run of outbound bits. -/
theorem execAll_txBit (k : Nat) (s : State) :
    execAll (List.replicate k .txBit) s = .next (txBit^[k] s) := by
  induction k generalizing s with
  | zero => rfl
  | succ k ih => exact ih (txBit s)

/-- Eight edges from a byte boundary: the byte handler, then the pending byte on the line (R162,
R164). -/
theorem shiftEdge_eight (s u : State) (b : Byte) (hr : s.shifter.rxCnt = 0)
    (ht : s.shifter.txCnt = 0) (hu : byteIn b (s.setShifter { s.shifter with rxSr := b }) = u) :
    (wireBits b).foldl (fun u v => shiftEdge v u) s =
      u.setShifter { u.shifter with txSr := u.shifter.txNext, txNext := Config.txFillByte } := by
  have h7 : [b.getLsbD 7, b.getLsbD 6, b.getLsbD 5, b.getLsbD 4, b.getLsbD 3, b.getLsbD 2,
      b.getLsbD 1].foldl (fun u v => shiftEdge v u) s = s.setShifter
        { s.shifter with
          rxSr := [b.getLsbD 7, b.getLsbD 6, b.getLsbD 5, b.getLsbD 4, b.getLsbD 3, b.getLsbD 2,
            b.getLsbD 1].foldl shiftIn s.shifter.rxSr
          rxCnt := 7, txSr := (fun w => shiftIn w false)^[7] s.shifter.txSr, txCnt := 7 } := by
    simp [shiftEdge, rxBit, txBit, hr, ht]
  have hb := shiftIn_wireBits s.shifter.rxSr b
  have hk := byteIn_setShifter (s.setShifter { s.shifter with rxSr := b })
    { s.shifter with
      rxSr := b, rxCnt := 0, txSr := (fun w => shiftIn w false)^[7] s.shifter.txSr, txCnt := 7 }
    b rfl
  have hsh := byteIn_shifter (s.setShifter { s.shifter with rxSr := b }) b
  rw [State.setShifter_setShifter] at hk
  rw [hu] at hk hsh
  simp only [wireBits, List.foldl_cons, List.foldl_nil] at h7 hb ⊢
  rw [h7, shiftEdge, rxBit_eighth _ _ rfl]
  simp only [State.setShifter_shifter, State.setShifter_setShifter, hb]
  rw [hk, txBit_eighth _ rfl]
  simp only [State.setShifter_shifter, State.setShifter_setShifter]
  rw [hsh]
  simp [hr, ht]

end Sys2Proof.Machine
end

