-- ==== Sys2Proof/Laws/Invariants.lean ====
section
/-! SUPPORT. What to show of bytes and of the shared operations to have a property kept by every step (spec/20_memory.md R70, R71). -/

namespace Sys2Proof.Machine

/-- A property kept by every shifter write and every byte is kept by every edge (R162). -/
theorem shiftEdge_invariant (P : State → Prop)
    (hshifter : ∀ u z, P u → P (u.setShifter z)) (hbyte : ∀ u b, P u → P (byteIn b u)) :
    ∀ u v, P u → P (shiftEdge v u) := by
  intro u v h
  rcases shiftEdge_cases u v with ⟨-, sh, e⟩ | ⟨-, sh, sh', e⟩
  · rw [e]
    exact hshifter _ _ h
  · rw [e]
    exact hshifter _ _ (hbyte _ _ (hshifter _ _ h))

/-- A property kept by transport writes, the bus reset, an overflow event and every edge is kept by
every `POLL` (R130). -/
theorem pollLines_invariant (P : State → Prop)
    (htransport : ∀ u x, P u → P (u.setTransport x)) (hbus : ∀ u, P u → P (resetBus u))
    (hoverflow : ∀ u, P u → P (emitError .transportOverflow u))
    (hedge : ∀ u v, P u → P (shiftEdge v u)) (s : State) (clk si sd : Bit) (h : P s) :
    P (pollLines clk si sd s) := by
  have hm : P (selectMonitor sd s) := by
    rcases selectMonitor_cases s sd with ⟨-, n, -, e⟩ | ⟨-, e⟩ <;> rw [e]
    · exact htransport _ _ h
    · exact hbus _ (htransport _ _ h)
  rw [pollLines]
  by_cases he : isActiveEdge clk (selectMonitor sd s)
  · simp only [he, if_true]
    refine drainLoop_invariant P (fun u rest => htransport u _) hedge _ _ ?_
    unfold sampleBit
    split
    · exact hoverflow _ (hbus _ (htransport _ _ hm))
    · exact htransport _ _ (htransport _ _ hm)
  · simp only [he, if_false, Bool.false_eq_true]
    exact htransport _ _ hm

/-- A property that reads only the frame, the flags, the rows, the trace and the configuration, and
that every byte keeps, is kept by every step once `RESET`, the bus reset, an overflow event and
`HOST_SET_BUSY` keep it (R11, R70). -/
theorem step_invariant (P : State → Prop)
    (hinputs : ∀ u l, P u → P (u.setInputs l)) (htransport : ∀ u x, P u → P (u.setTransport x))
    (hshifter : ∀ u z, P u → P (u.setShifter z)) (hreset : ∀ u, P u → P (resetAll u))
    (hbusy : ∀ u b, P u → P (writeBusy b u)) (hbus : ∀ u, P u → P (resetBus u))
    (hoverflow : ∀ u, P u → P (emitError .transportOverflow u))
    (hbyte : ∀ u b, P u → P (byteIn b u)) {s t : State} (hs : P s) (h : step s = .next t) : P t := by
  obtain ⟨-, ⟨-, rfl⟩ | ⟨e, rest, -, ⟨-, rfl⟩ | ⟨clk, si, sd, -, rfl⟩ | ⟨b, -, rfl⟩⟩⟩ :=
    step_next s h
  · exact hs
  · exact hreset _ (hinputs _ _ hs)
  · exact pollLines_invariant P htransport hbus hoverflow
      (shiftEdge_invariant P hshifter hbyte) _ _ _ _ (hinputs _ _ hs)
  · exact hbusy _ _ (hinputs _ _ hs)

/-- Every step from an empty backlog is one of: held, `RESET`, `HOST_SET_BUSY`, or the select monitor
with the clock recorded and one edge if there is an active one (R130, R136). -/
theorem step_cases {s t : State} (hf : s.transport.fifo = []) (h : step s = .next t) :
    (s.inputs = [] ∧ t = s) ∨ ∃ e rest, s.inputs = e :: rest ∧
      ((NextEvent s .reset ∧ t = resetAll (s.setInputs rest)) ∨
        (∃ b, NextEvent s (.hostSetBusy b) ∧ t = writeBusy b (s.setInputs rest)) ∨
        (∃ clk si sd m, NextEvent s (.poll clk si sd) ∧
          m = recordClock clk (selectMonitor sd (s.setInputs rest)) ∧
          (¬FindsEdge s clk ∧ t = m ∨ FindsEdge s clk ∧ t = shiftEdge si m))) := by
  obtain ⟨hw, hk | ⟨e, rest, hin, hk⟩⟩ := step_next s h
  · exact .inl hk
  · refine .inr ⟨e, rest, hin, ?_⟩
    rcases hk with hk | ⟨clk, si, sd, hn, rfl⟩ | hk
    · exact .inl hk
    · exact .inr (.inr ⟨clk, si, sd, _, hn, rfl,
        pollLines_cases (s.setInputs rest) clk si sd (Cfg.wf_backlog hw) hf⟩)
    · exact .inr (.inl hk)

/-- What a step from an empty backlog can do to frame, flags, rows and trace, and what makes it do so: a
`RESET`; a write of `busy`; nothing; a bus reset; or the byte that completes, from a state `w` that
differs from `s` in the link alone (R71, R297). -/
theorem step_effect {s t : State} (hf : s.transport.fifo = []) (h : step s = .next t) :
    (NextEvent s .reset ∧ ∃ rest, t = resetAll (s.setInputs rest)) ∨
    (∃ b, NextEvent s (.hostSetBusy b) ∧ t.frame = s.frame ∧ t.rows = s.rows ∧ t.out = s.out ∧
      t.flags = { s.flags with busy := b }) ∨
    ((∀ b, ¬CompletesByte s b) ∧ ¬ForcesIdle s ∧ t.frame = s.frame ∧ t.flags = s.flags ∧
      t.rows = s.rows ∧ t.out = s.out) ∨
    (ForcesIdle s ∧ t.frame = Frame.reset ∧ t.flags = s.flags ∧ t.rows = s.rows ∧
      t.out = s.out) ∨
    ∃ b, CompletesByte s b ∧ ∃ w : State, w.cfg = s.cfg ∧ w.frame = s.frame ∧ w.flags = s.flags ∧
      w.rows = s.rows ∧ w.out = s.out ∧ ∃ z, t = (byteIn b w).setShifter z := by
  obtain ⟨hin, rfl⟩ | ⟨e, rest, -, ⟨hn, ht⟩ | ⟨b, hn, ht⟩ | ⟨clk, si, sd, m, hn, hm, hk⟩⟩ :=
    step_cases hf h
  · have none : ∀ i, ¬NextEvent t i := by
      rintro i ⟨e, rest, h, -⟩
      rw [hin] at h
      cases h
    refine .inr (.inr (.inl ⟨?_, ?_, rfl, rfl, rfl, rfl⟩))
    · rintro b ⟨_, _, _, h, -⟩
      exact none _ h
    · rintro (h | ⟨_, _, _, h, -⟩)
      · exact none _ h
      · exact none _ h
  · exact .inl ⟨hn, rest, ht⟩
  · rw [ht]
    exact .inr (.inl ⟨b, hn, rfl, rfl, rfl, rfl⟩)
  · right; right
    rcases selectMonitor_cases (s.setInputs rest) sd with ⟨hfire, n, -, e⟩ | ⟨hfire, e⟩ <;>
      rw [e] at hm
    · have hforce : ¬ForcesIdle s := by
        rintro (h | ⟨_, _, _, h, hf'⟩)
        · cases hn.unique h
        · cases hn.unique h
          exact hfire hf'
      rcases hk with ⟨hedge, rfl⟩ | ⟨hedge, rfl⟩
      · refine .inl ⟨?_, hforce, ?_⟩
        · rintro b ⟨_, _, _, h, he, -⟩
          cases hn.unique h
          exact hedge he
        · rw [hm]
          exact ⟨rfl, rfl, rfl, rfl⟩
      · rcases shiftEdge_cases m si with ⟨h7, sh, e⟩ | ⟨h7, sh, sh', e⟩ <;> rw [e, hm]
        · refine .inl ⟨?_, hforce, rfl, rfl, rfl, rfl⟩
          rintro b ⟨_, _, _, -, -, -, h, -⟩
          rw [hm] at h7
          exact h7 h
        · rw [hm] at h7
          exact .inr (.inr ⟨_, ⟨clk, si, sd, hn, hedge, hfire, h7, rfl⟩,
            (recordClock clk (writeSdCnt n (s.setInputs rest))).setShifter sh, rfl, rfl, rfl, rfl,
            rfl, sh', rfl⟩)
    · right; left
      refine ⟨.inr ⟨clk, si, sd, hn, hfire⟩, ?_⟩
      rcases hk with ⟨-, rfl⟩ | ⟨-, rfl⟩
      · rw [hm]
        exact ⟨rfl, rfl, rfl, rfl⟩
      · have h7 : m.shifter.rxCnt ≠ 7 := by
          rw [hm]
          change (0 : Fin 8) ≠ 7
          decide
        rw [shiftEdge, txBit_keeps, rxBit_early m si h7, hm]
        exact ⟨rfl, rfl, rfl, rfl⟩

/-- What a byte does to rows, trace and flags: nothing; one checksum error; or what dispatch does, and
only while the keep-alive byte is awaited (R298, R302). -/
theorem byteIn_effect (s : State) (b : Byte) :
    ((byteIn b s).rows = s.rows ∧ (byteIn b s).out = s.out ∧ (byteIn b s).flags = s.flags) ∨
    ((byteIn b s).rows = s.rows ∧
      (byteIn b s).out = s.out ++ [.protocolError .checksumMismatch s.draws] ∧
      (byteIn b s).flags = { s.flags with checksumError := true }) ∨
    (s.frame.ps = .readKeepAlive ∧
      (byteIn b s).rows = (dispatchPacket (packetOf s) s).rows ∧
      (byteIn b s).out = (dispatchPacket (packetOf s) s).out ∧
      (byteIn b s).flags = (dispatchPacket (packetOf s) s).flags) := by
  rcases byteIn_cases s b with ⟨fr, h⟩ | ⟨x, fr, -, h⟩ | ⟨x, fr, -, h⟩ | ⟨x, fr, hps, h⟩ <;> rw [h]
  · exact .inl ⟨rfl, rfl, rfl⟩
  · exact .inl ⟨rfl, rfl, rfl⟩
  · exact .inr (.inl ⟨rfl, rfl, rfl⟩)
  · exact .inr (.inr ⟨hps, rfl, rfl, rfl⟩)

end Sys2Proof.Machine
end

