-- ==== Sys2Proof/Laws/Frames.lean ====
section
/-! SUPPORT. The parts of a frame as runs of bytes: header, payload, checksum (spec/30_encoding.md R94, spec/42_packet_fsm.md R177 to R189). -/

namespace Sys2Proof.Machine

/-- The header of a frame, from `Idle` (R94, R177 to R184). -/
theorem byteIn_header (s : State) (cmd comp lo hi : Byte) (h : s.frame.ps = .idle) :
    [Config.sync1, Config.sync2, cmd, comp, lo, hi].foldl (fun u b => byteIn b u) s = s.setFrame
      { s.frame with
        ps := if (hi ++ lo : Half) = 0#16 then .readChecksum else .readPayload
        bidx := false, pidx := 0, cmd, comp, len := hi ++ lo
        sum := byteSum [cmd, comp, lo, hi], pbuf := [] } := by
  have e : byteSum [cmd, comp, lo, hi] =
      addByte (addByte (addByte (cmd.zeroExtend 16) comp) lo) hi := by
    rw [show [cmd, comp, lo, hi] = (([cmd] ++ [comp]) ++ [lo]) ++ [hi] from rfl, byteSum_append,
      byteSum_append, byteSum_append, byteSum_singleton]
  simp only [List.foldl_cons, List.foldl_nil, byteIn, decodeByte, h, if_true, runByteRow, idleSync1,
    goto, State.setFrame_frame, sync1Sync2, sync2Cmd, rdComp, rdLenLo, rdLenHi,
    State.setFrame_setFrame, Bool.false_eq_true, if_false, setHighByte_setLowByte, e]
  rfl

/-- A nonempty payload that fills the announced length (R185). -/
theorem byteIn_payload : ∀ (l : List Byte) (s : State), s.frame.ps = .readPayload → l ≠ [] →
    s.frame.pidx + l.length = s.frame.len.toNat → s.frame.bidx = false →
    l.foldl (fun u b => byteIn b u) s = s.setFrame
      { s.frame with
        ps := .readChecksum, bidx := false, pidx := s.frame.pidx + l.length
        sum := s.frame.sum + byteSum l, pbuf := s.frame.pbuf ++ l }
  | [], _, _, h, _, _ => absurd rfl h
  | [b], s, hp, _, hl, hb => by
    have hl' : s.frame.pidx + 1 = s.frame.len.toNat := hl
    simp [byteIn, decodeByte, hp, runByteRow, rdPay, hl', addByte, byteSum]
  | b :: c :: l, s, hp, _, hl, hb => by
    have hne : s.frame.pidx + 1 ≠ s.frame.len.toNat := by
      simp only [List.length_cons] at hl
      omega
    have hr : byteIn b s = s.setFrame
        { s.frame with
          pbuf := s.frame.pbuf ++ [b], pidx := s.frame.pidx + 1
          sum := addByte s.frame.sum b } := by
      simp [byteIn, decodeByte, hp, runByteRow, rdPay, hne]
    have ih := byteIn_payload (c :: l) (byteIn b s) (by rw [hr]; exact hp) (by simp)
      (by
        rw [hr]
        simp only [State.setFrame_frame, List.length_cons] at hl ⊢
        omega) (by rw [hr]; exact hb)
    rw [List.foldl_cons, ih, hr]
    simp [addByte, byteSum, BitVec.add_assoc, Nat.add_assoc, Nat.add_comm]

/-- The two checksum bytes (R186, R189). -/
theorem byteIn_checksum (s : State) (lo hi : Byte) (h : s.frame.ps = .readChecksum)
    (hb : s.frame.bidx = false) :
    [lo, hi].foldl (fun u b => byteIn b u) s =
      replyThen s.cfg.keepAliveByte .readKeepAlive
        (recordMismatch (s.setFrame
          { s.frame with
            cks := hi ++ lo, bidx := false, ckOk := (hi ++ lo : Half) == s.frame.sum })) := by
  simp only [List.foldl_cons, List.foldl_nil, byteIn, decodeByte, h, hb, runByteRow, rdCksLo,
    State.setFrame_frame, Bool.false_eq_true, if_false, if_true, rdCksHi, compareChecksum,
    setHighByte_setLowByte, State.setFrame_setFrame, State.setFrame_cfg]

/-- The command a byte selects, executed on the completed packet, is dispatch (R210). -/
theorem exec_decodeCommand (s : State) (h : s.frame.ckOk = true) :
    exec (decodeCommand s.cfg s.frame.cmd) s = .next (dispatchPacket (packetOf s) s) := by
  have hp : (packetOf s).checksumOk = true := h
  have hc : (packetOf s).command = classify s.cfg s.frame.cmd := rfl
  unfold decodeCommand dispatchPacket
  simp only [hp, hc, if_true]
  cases classify s.cfg s.frame.cmd <;> rfl

end Sys2Proof.Machine
end

