-- ==== Sys2Proof/Laws/PerInstr.lean ====
section
/-! SUPPORT. Per instruction: whatever bytes decode to it, at whatever place, it is well formed there and no internal sub-operation (spec/30_encoding.md R90, R98, R100). -/

namespace Sys2Proof

/-- A byte in its slot decodes to a well-formed handler (R98). -/
theorem decodeByte_wellFormed (c : Cfg) (ps : PacketState) (bidx : Bit) (b : Byte) :
    (decodeByte ps bidx b).instr.wellFormed c = true ∧
      (decodeByte ps bidx b).instr.isInternal = false := by
  unfold decodeByte
  cases ps with
  | idle =>
    simp only
    split
    · exact ⟨rfl, rfl⟩
    · rename_i h
      exact ⟨bne_iff_ne.mpr h, rfl⟩
  | sync1 =>
    simp only
    split
    · exact ⟨rfl, rfl⟩
    · rename_i h
      exact ⟨bne_iff_ne.mpr h, rfl⟩
  | readLength => cases bidx <;> exact ⟨rfl, rfl⟩
  | readChecksum => cases bidx <;> exact ⟨rfl, rfl⟩
  | _ => exact ⟨rfl, rfl⟩

/-- A command byte decodes to a well-formed command (R100). -/
theorem decodeCommand_wellFormed (c : Cfg) (b : Byte) :
    (decodeCommand c b).wellFormed c = true ∧ (decodeCommand c b).isInternal = false := by
  unfold decodeCommand classify
  by_cases h1 : b = c.cmdInit
  · simp [h1, Instr.wellFormed, Instr.isInternal]
  by_cases h2 : b = c.cmdPrint
  · rw [if_neg h1, if_pos h2]
    exact ⟨rfl, rfl⟩
  by_cases h3 : b = c.cmdData
  · rw [if_neg h1, if_neg h2, if_pos h3]
    exact ⟨rfl, rfl⟩
  by_cases h4 : b = c.cmdStatus
  · rw [if_neg h1, if_neg h2, if_neg h3, if_pos h4]
    exact ⟨rfl, rfl⟩
  simp [h1, h2, h3, h4, Instr.wellFormed, Instr.isInternal, Cfg.isUnknown]

/-- An event's word decodes to a well-formed wire operation (R91). -/
theorem decodeEvent_wellFormed (c : Cfg) {kind : EventKind} {bytes : List Byte} {i : Instr}
    (h : decodeEvent kind bytes = .instr i) : i.wellFormed c = true ∧ i.isInternal = false := by
  unfold decodeEvent at h
  split at h
  case h_1 =>
    cases h
    exact ⟨rfl, rfl⟩
  case h_4 =>
    split at h
    · cases h
      exact ⟨rfl, rfl⟩
    · cases h
  case h_7 =>
    split at h
    · cases h
      exact ⟨rfl, rfl⟩
    · cases h
  all_goals cases h

/-- Whatever decodes is well formed and has an encoding. -/
theorem decode_wellFormed {c : Cfg} {place : Place} {bytes : List Byte} {i : Instr}
    (h : decode c place bytes = .instr i) : i.wellFormed c = true ∧ i.isInternal = false := by
  unfold decode at h
  split at h
  case h_1 => exact decodeEvent_wellFormed c h
  case h_2 ps bidx b =>
    cases h
    exact decodeByte_wellFormed c ps bidx b
  case h_3 b =>
    cases h
    exact decodeCommand_wellFormed c b
  case h_4 b =>
    cases h
    unfold decodeControl
    cases b.msb <;> exact ⟨rfl, rfl⟩
  all_goals cases h

/-- Only well-formed operations of the four levels are ever decoded. -/
def Laws.DecodedWellFormed.Statement (i : Instr) : Prop :=
  ∀ (c : Cfg) (place : Place) (bytes : List Byte), decode c place bytes = .instr i →
    i.wellFormed c = true ∧ i.isInternal = false

theorem Laws.DecodedWellFormed.reset : Laws.DecodedWellFormed.Statement .reset :=
  fun _ _ _ => decode_wellFormed

theorem Laws.DecodedWellFormed.poll (clk : Bit) (si : Bit) (sd : Bit) :
    Laws.DecodedWellFormed.Statement (.poll clk si sd) :=
  fun _ _ _ => decode_wellFormed

theorem Laws.DecodedWellFormed.hostSetBusy (b : Bit) :
    Laws.DecodedWellFormed.Statement (.hostSetBusy b) :=
  fun _ _ _ => decode_wellFormed

theorem Laws.DecodedWellFormed.idleSync1 : Laws.DecodedWellFormed.Statement .idleSync1 :=
  fun _ _ _ => decode_wellFormed

theorem Laws.DecodedWellFormed.idleSkip (b : Byte) :
    Laws.DecodedWellFormed.Statement (.idleSkip b) :=
  fun _ _ _ => decode_wellFormed

theorem Laws.DecodedWellFormed.sync1Sync2 : Laws.DecodedWellFormed.Statement .sync1Sync2 :=
  fun _ _ _ => decode_wellFormed

theorem Laws.DecodedWellFormed.sync1Resync (b : Byte) :
    Laws.DecodedWellFormed.Statement (.sync1Resync b) :=
  fun _ _ _ => decode_wellFormed

theorem Laws.DecodedWellFormed.sync2Cmd (b : Byte) :
    Laws.DecodedWellFormed.Statement (.sync2Cmd b) :=
  fun _ _ _ => decode_wellFormed

theorem Laws.DecodedWellFormed.rdComp (b : Byte) : Laws.DecodedWellFormed.Statement (.rdComp b) :=
  fun _ _ _ => decode_wellFormed

theorem Laws.DecodedWellFormed.rdLenLo (b : Byte) :
    Laws.DecodedWellFormed.Statement (.rdLenLo b) :=
  fun _ _ _ => decode_wellFormed

theorem Laws.DecodedWellFormed.rdLenHi (b : Byte) :
    Laws.DecodedWellFormed.Statement (.rdLenHi b) :=
  fun _ _ _ => decode_wellFormed

theorem Laws.DecodedWellFormed.rdPay (b : Byte) : Laws.DecodedWellFormed.Statement (.rdPay b) :=
  fun _ _ _ => decode_wellFormed

theorem Laws.DecodedWellFormed.rdCksLo (b : Byte) :
    Laws.DecodedWellFormed.Statement (.rdCksLo b) :=
  fun _ _ _ => decode_wellFormed

theorem Laws.DecodedWellFormed.rdCksHi (b : Byte) :
    Laws.DecodedWellFormed.Statement (.rdCksHi b) :=
  fun _ _ _ => decode_wellFormed

theorem Laws.DecodedWellFormed.rdKa (b : Byte) : Laws.DecodedWellFormed.Statement (.rdKa b) :=
  fun _ _ _ => decode_wellFormed

theorem Laws.DecodedWellFormed.cmdInit : Laws.DecodedWellFormed.Statement .cmdInit :=
  fun _ _ _ => decode_wellFormed

theorem Laws.DecodedWellFormed.cmdPrint : Laws.DecodedWellFormed.Statement .cmdPrint :=
  fun _ _ _ => decode_wellFormed

theorem Laws.DecodedWellFormed.cmdData : Laws.DecodedWellFormed.Statement .cmdData :=
  fun _ _ _ => decode_wellFormed

theorem Laws.DecodedWellFormed.cmdStatus : Laws.DecodedWellFormed.Statement .cmdStatus :=
  fun _ _ _ => decode_wellFormed

theorem Laws.DecodedWellFormed.cmdUnknown (commandByte : Byte) :
    Laws.DecodedWellFormed.Statement (.cmdUnknown commandByte) :=
  fun _ _ _ => decode_wellFormed

theorem Laws.DecodedWellFormed.rleRepeat (n : BitVec 7) :
    Laws.DecodedWellFormed.Statement (.rleRepeat n) :=
  fun _ _ _ => decode_wellFormed

theorem Laws.DecodedWellFormed.rleLiteral (n : BitVec 7) :
    Laws.DecodedWellFormed.Statement (.rleLiteral n) :=
  fun _ _ _ => decode_wellFormed

theorem Laws.DecodedWellFormed.selectMonitor (sd : Bit) :
    Laws.DecodedWellFormed.Statement (.selectMonitor sd) :=
  fun _ _ _ => decode_wellFormed

theorem Laws.DecodedWellFormed.edgeDetect (clk : Bit) :
    Laws.DecodedWellFormed.Statement (.edgeDetect clk) :=
  fun _ _ _ => decode_wellFormed

theorem Laws.DecodedWellFormed.sample (si : Bit) :
    Laws.DecodedWellFormed.Statement (.sample si) :=
  fun _ _ _ => decode_wellFormed

theorem Laws.DecodedWellFormed.drain : Laws.DecodedWellFormed.Statement .drain :=
  fun _ _ _ => decode_wellFormed

theorem Laws.DecodedWellFormed.shiftEdge (v : Bit) :
    Laws.DecodedWellFormed.Statement (.shiftEdge v) :=
  fun _ _ _ => decode_wellFormed

theorem Laws.DecodedWellFormed.rxBit (v : Bit) : Laws.DecodedWellFormed.Statement (.rxBit v) :=
  fun _ _ _ => decode_wellFormed

theorem Laws.DecodedWellFormed.txBit : Laws.DecodedWellFormed.Statement .txBit :=
  fun _ _ _ => decode_wellFormed

theorem Laws.DecodedWellFormed.byteIn (b : Byte) : Laws.DecodedWellFormed.Statement (.byteIn b) :=
  fun _ _ _ => decode_wellFormed

theorem Laws.DecodedWellFormed.dispatch : Laws.DecodedWellFormed.Statement .dispatch :=
  fun _ _ _ => decode_wellFormed

theorem Laws.DecodedWellFormed.decompress (input : List Byte) :
    Laws.DecodedWellFormed.Statement (.decompress input) :=
  fun _ _ _ => decode_wellFormed

theorem Laws.DecodedWellFormed.append (data : List Byte) :
    Laws.DecodedWellFormed.Statement (.append data) :=
  fun _ _ _ => decode_wellFormed

theorem Laws.DecodedWellFormed.tileRowDecode (d : Vector Byte 320) :
    Laws.DecodedWellFormed.Statement (.tileRowDecode d) :=
  fun _ _ _ => decode_wellFormed

theorem Laws.DecodedWellFormed.finalize (params : PrintParameters) :
    Laws.DecodedWellFormed.Statement (.finalize params) :=
  fun _ _ _ => decode_wellFormed

theorem Laws.DecodedWellFormed.emitImageReady (image : FinishedImage) (params : PrintParameters) :
    Laws.DecodedWellFormed.Statement (.emitImageReady image params) :=
  fun _ _ _ => decode_wellFormed

theorem Laws.DecodedWellFormed.emitProtocolError (kind : ErrorKind) :
    Laws.DecodedWellFormed.Statement (.emitProtocolError kind) :=
  fun _ _ _ => decode_wellFormed

theorem Laws.DecodedWellFormed.busReset : Laws.DecodedWellFormed.Statement .busReset :=
  fun _ _ _ => decode_wellFormed

end Sys2Proof
end

