-- ==== Sys2Proof/Laws/Rle.lean ====
section
/-! SUPPORT. The decompressor's loop: enough turns, output so far as a prefix, and one run at a time (spec/44_rle_decompressor.md R230 to R236). -/

namespace Sys2Proof.Machine

/-- One run of the stream, as the loop takes it: what is left and the run's output, or none if the input ends
inside it (R232, R233, R234). -/
def rleTake (c : Byte) (rest : List Byte) : Option (List Byte × List Byte) :=
  if c.msb then
    match rest with
    | [] => none
    | v :: more => some (more, List.replicate (runLength (runField c)) v)
  else if rest.length < runLength (runField c) then none
  else some (rest.drop (runLength (runField c)), rest.take (runLength (runField c)))

/-- The run the loop makes is the run taken (R230). -/
theorem rleRun_eq (c : Byte) (rest output : List Byte) :
    rleRun c { input := rest, output, truncated := false } =
      match rleTake c rest with
      | none => { input := rest, output := [], truncated := true }
      | some (more, out) => { input := more, output := output ++ out, truncated := false } := by
  unfold rleRun rleTake
  by_cases h : c.msb
  · simp only [h, if_true, rleRepeatRun]
    cases rest <;> rfl
  · simp only [h, rleLiteralRun]
    by_cases h2 : rest.length < runLength (runField c)
    · simp [h2, rleFail]
    · simp [h2]

/-- A run leaves fewer bytes than it found (R230). -/
theorem rleTake_length {c : Byte} {rest more out : List Byte}
    (h : rleTake c rest = some (more, out)) : more.length < rest.length := by
  unfold rleTake at h
  split at h
  · cases rest with
    | nil => cases h
    | cons v t =>
      cases h
      simp
  · split at h
    · cases h
    · rename_i h2
      cases h
      simp [runLength] at h2 ⊢
      omega

/-- A truncated decompression stays as it is (R234). -/
theorem rleLoop_truncated (n : Nat) (w : Rle) (h : w.truncated = true) : rleLoop n w = w := by
  cases n <;> simp [rleLoop, h]

/-- The loop from some output so far against the loop from none, each with enough turns (R230). -/
theorem rleLoop_prefix : ∀ (k n m : Nat) (input output : List Byte),
    input.length ≤ k → input.length ≤ n → input.length ≤ m →
    (rleLoop n { input, output, truncated := false }).truncated =
      (rleLoop m { input, output := [], truncated := false }).truncated ∧
    ((rleLoop m { input, output := [], truncated := false }).truncated = false →
      (rleLoop n { input, output, truncated := false }).output =
        output ++ (rleLoop m { input, output := [], truncated := false }).output)
  | _, n, m, [], output, _, _, _ => by
    cases n <;> cases m <;> simp [rleLoop]
  | 0, _, _, _ :: _, _, hk, _, _ => by simp at hk
  | _ + 1, 0, _, _ :: _, _, _, hn, _ => by simp at hn
  | _ + 1, _ + 1, 0, _ :: _, _, _, _, hm => by simp at hm
  | k + 1, n + 1, m + 1, c :: rest, output, hk, hn, hm => by
    simp only [List.length_cons, Nat.add_le_add_iff_right] at hk hn hm
    simp only [rleLoop, rleRun_eq, Bool.false_eq_true, if_false]
    cases hr : rleTake c rest with
    | none => simp [rleLoop_truncated]
    | some p =>
      obtain ⟨more, out⟩ := p
      have hl := rleTake_length hr
      have h1 := rleLoop_prefix k n more.length more (output ++ out) (by omega) (by omega)
        (Nat.le_refl _)
      have h2 := rleLoop_prefix k m more.length more out (by omega) (by omega) (Nat.le_refl _)
      simp only [List.nil_append]
      refine ⟨h1.1.trans h2.1.symm, fun h => ?_⟩
      have h0 := h2.1.symm.trans h
      rw [h1.2 h0, h2.2 h0, List.append_assoc]

/-- The loop, from any output so far, with turns enough, gives that output and the decompression of
the rest (R230). -/
theorem rleLoop_spec (n : Nat) (input output : List Byte) (h : input.length ≤ n) :
    (if (rleLoop n { input, output, truncated := false }).truncated then none
      else some (rleLoop n { input, output, truncated := false }).output) =
      (decompressBytes input).map (output ++ ·) := by
  obtain ⟨h1, h2⟩ := rleLoop_prefix input.length n input.length input output (Nat.le_refl _) h
    (Nat.le_refl _)
  unfold decompressBytes rleFinal
  rw [h1]
  cases ht : (rleLoop input.length { input, output := [], truncated := false }).truncated with
  | true => rfl
  | false =>
    simp only [Bool.false_eq_true, if_false, Option.map_some]
    rw [h2 ht]

/-- An empty input decompresses to nothing (R236). -/
theorem decompressBytes_nil : decompressBytes [] = some [] := rfl

/-- One control byte of the decompressor: its run, then the rest (R230). -/
theorem decompressBytes_cons (c : Byte) (rest : List Byte) :
    decompressBytes (c :: rest) =
      match rleTake c rest with
      | none => none
      | some (more, out) => (decompressBytes more).map (out ++ ·) := by
  have hd : decompressBytes (c :: rest) =
      if (rleLoop rest.length (rleRun c { input := rest, output := [], truncated := false })).truncated
      then none
      else some (rleLoop rest.length
        (rleRun c { input := rest, output := [], truncated := false })).output := rfl
  rw [hd, rleRun_eq]
  cases hr : rleTake c rest with
  | none => simp [rleLoop_truncated]
  | some p =>
    obtain ⟨more, out⟩ := p
    simpa using rleLoop_spec rest.length more out (Nat.le_of_lt (rleTake_length hr))

end Sys2Proof.Machine
end

