-- ==== Sys2Proof/Tests/Slice0.lean ====
section
/-! SUPPORT. The model's own tests: the checks of well-formedness, words written out from the encodings of the spec, vectors of spec/95_test_vectors.md, and for every statement with hypotheses a state and operands that meet them. -/

namespace Sys2Proof.Tests

open Sys2Proof.Machine

/-- The next state of an outcome, if it is one. -/
def nextOf (o : Host.Outcome State Fault Refusal) : Option State :=
  match o with
  | .next t => some t
  | .fault _ => none
  | .refused _ => none

/-- A field of the next state of an operation from a state. -/
def after {α : Type} (i : Instr) (s : State) (f : State → α) : Option α := (nextOf (exec i s)).map f

/-- A field of the next state of a step. -/
def afterStep {α : Type} (s : State) (f : State → α) : Option α := (nextOf (step s)).map f

/-- The reset state with another in-flight packet state. -/
def withFrame (f : Frame) : State := State.reset.setFrame f

/-- The reset state awaiting the keep-alive byte of a checksum-correct packet. -/
def packet (cmd comp : Byte) (payload : List Byte) : State :=
  withFrame { Frame.reset with ps := .readKeepAlive, cmd, comp, ckOk := true, pbuf := payload }

/-- One blank pixel row. -/
def blankRow : PixelRow := List.replicate 160 0#2

/-- Eight blank pixel rows. -/
def eightRows : List PixelRow := List.replicate 8 blankRow

/-- An all-ones tile row. -/
def fullTileRow : List Byte := List.replicate 320 0xFF#8

/-! ## Well-formedness -/

/-- Each check of `Instr.wellFormed` refuses an ill-formed term (R98, R100, R43). -/
theorem test_ill_formed_refused :
    Instr.wellFormed Cfg.cfg0 (.idleSkip 0x88#8) = false ∧
    Instr.wellFormed Cfg.cfg0 (.sync1Resync 0x33#8) = false ∧
    Instr.wellFormed Cfg.cfg0 (.cmdUnknown 0x01#8) = false ∧
    Instr.wellFormed Cfg.cfg0 (.cmdUnknown 0x02#8) = false ∧
    Instr.wellFormed Cfg.cfg0 (.cmdUnknown 0x04#8) = false ∧
    Instr.wellFormed Cfg.cfg0 (.cmdUnknown 0x0F#8) = false := by decide

/-- A finished image of the wrong width, depth, height or row length is ill formed (R43). -/
theorem test_ill_formed_image :
    FinishedImage.wf ⟨8, 2, 0, [], 0, 0⟩ = false ∧ FinishedImage.wf ⟨160, 1, 0, [], 0, 0⟩ = false ∧
    FinishedImage.wf ⟨160, 2, 1, [], 0, 0⟩ = false ∧
    FinishedImage.wf ⟨160, 2, 1, [[0#2]], 0, 0⟩ = false ∧
    FinishedImage.wf ⟨160, 2, 0, [], 0, 0⟩ = true := by decide

/-- The constraints of R7: distinct commands, distinct positions, a backlog, whole tile rows. -/
theorem test_bad_configurations :
    Cfg.wf { Cfg.cfg0 with cmdPrint := 0x01#8 } = false ∧
    Cfg.wf { Cfg.cfg0 with cmdStatus := 0x04#8 } = false ∧
    Cfg.wf { Cfg.cfg0 with posBusy := 0 } = false ∧
    Cfg.wf { Cfg.cfg0 with backlogDepth := 0 } = false ∧
    Cfg.wf { Cfg.cfg0 with maxHeight := 2881 } = false ∧ Cfg.wf Cfg.cfg0 = true := by decide

/-! ## Decoding: every operation with an encoding, its word written out -/

/-- Level W: the words of R91. -/
theorem test_decode_events :
    decode Cfg.cfg0 (.event .reset) [] = .instr .reset ∧
    decode Cfg.cfg0 (.event .poll) [0b00000100#8] = .instr (.poll true false false) ∧
    decode Cfg.cfg0 (.event .poll) [0b00000010#8] = .instr (.poll false true false) ∧
    decode Cfg.cfg0 (.event .poll) [0b00000001#8] = .instr (.poll false false true) ∧
    decode Cfg.cfg0 (.event .hostSetBusy) [0b00000000#8] = .instr (.hostSetBusy false) ∧
    decode Cfg.cfg0 (.event .hostSetBusy) [0b00000001#8] = .instr (.hostSetBusy true) := by decide

/-- Words that are none of their place, by name. -/
theorem test_decode_rejects :
    decode Cfg.cfg0 (.event .poll) [0b00001000#8] = .reject .unusedBits ∧
    decode Cfg.cfg0 (.event .hostSetBusy) [0b00000010#8] = .reject .unusedBits ∧
    decode Cfg.cfg0 (.event .poll) [] = .reject .noWord ∧
    decode Cfg.cfg0 (.event .reset) [0#8] = .reject .extraBytes ∧
    decode Cfg.cfg0 .command [] = .reject .noWord ∧
    decode Cfg.cfg0 .control [0#8, 0#8] = .reject .extraBytes := by decide

/-- Level B, synchronisation and header: rows of R98, bytes of B1 to B8. -/
theorem test_decode_header :
    decode Cfg.cfg0 (.byteSlot .idle false) [0b10001000#8] = .instr .idleSync1 ∧
    decode Cfg.cfg0 (.byteSlot .idle false) [0b00110011#8] = .instr (.idleSkip 0x33#8) ∧
    decode Cfg.cfg0 (.byteSlot .sync1 false) [0b00110011#8] = .instr .sync1Sync2 ∧
    decode Cfg.cfg0 (.byteSlot .sync1 false) [0b10001000#8] = .instr (.sync1Resync 0x88#8) ∧
    decode Cfg.cfg0 (.byteSlot .sync2 false) [0b10001000#8] = .instr (.sync2Cmd 0x88#8) ∧
    decode Cfg.cfg0 (.byteSlot .readCompression false) [0b00000010#8] = .instr (.rdComp 0x02#8) := by
  decide

/-- Level B, length, payload, checksum and keep-alive: rows of R98. -/
theorem test_decode_body :
    decode Cfg.cfg0 (.byteSlot .readLength false) [0b10000000#8] = .instr (.rdLenLo 0x80#8) ∧
    decode Cfg.cfg0 (.byteSlot .readLength true) [0b00000010#8] = .instr (.rdLenHi 0x02#8) ∧
    decode Cfg.cfg0 (.byteSlot .readPayload false) [0b10101010#8] = .instr (.rdPay 0xAA#8) ∧
    decode Cfg.cfg0 (.byteSlot .readChecksum false) [0b00000101#8] = .instr (.rdCksLo 0x05#8) ∧
    decode Cfg.cfg0 (.byteSlot .readChecksum true) [0b00000001#8] = .instr (.rdCksHi 0x01#8) ∧
    decode Cfg.cfg0 (.byteSlot .readKeepAlive false) [0b01011010#8] = .instr (.rdKa 0x5A#8) := by
  decide

/-- Level P under CFG0: the rows of R100, and P-13. -/
theorem test_decode_commands :
    decode Cfg.cfg0 .command [0b00000001#8] = .instr .cmdInit ∧
    decode Cfg.cfg0 .command [0b00000010#8] = .instr .cmdPrint ∧
    decode Cfg.cfg0 .command [0b00000100#8] = .instr .cmdData ∧
    decode Cfg.cfg0 .command [0b00001111#8] = .instr .cmdStatus ∧
    decode Cfg.cfg0 .command [0b00000000#8] = .instr (.cmdUnknown 0x00#8) ∧
    decode Cfg.cfg0 .command [0b11111111#8] = .instr (.cmdUnknown 0xFF#8) := by decide

/-- Level R: the two rows of R103 at both ends of their runs (S8). -/
theorem test_decode_controls :
    decode Cfg.cfg0 .control [0b10000000#8] = .instr (.rleRepeat 0#7) ∧
    decode Cfg.cfg0 .control [0b11111111#8] = .instr (.rleRepeat 127#7) ∧
    decode Cfg.cfg0 .control [0b00000000#8] = .instr (.rleLiteral 0#7) ∧
    decode Cfg.cfg0 .control [0b01111111#8] = .instr (.rleLiteral 127#7) ∧
    runLength 0#7 = 1 ∧ runLength 127#7 = 128 := by decide

/-- Bare table words, and one of them placed and run as the first step after reset (log 10). -/
theorem test_table_words :
    decodeTableWord 3 0b110 = some (.poll true true false) ∧
    decodeTableWord 8 0x88 = some .idleSync1 ∧ decodeTableWord 8 0x33 = some .sync1Sync2 ∧
    decodeTableWord 8 0x04 = some .cmdData ∧ decodeTableWord 8 0x80 = some (.rleRepeat 0#7) ∧
    decodeTableWord 3 8 = none ∧
    afterStep (State.reset.withFetchWord 8 0x88) (fun t => t.frame.ps) = some .sync1 := by decide

/-! ## Vectors of spec/95_test_vectors.md -/

/-- W1: the first poll after reset finds no edge. -/
theorem test_w1 : after (.poll true true true) State.reset
    (fun t => (t.transport.clkPrev, t.shifter.rxCnt, t.transport.sdCnt)) =
      some (some true, 0, 0) := by decide

/-- W5: an edge samples one bit, shifted in at bit 0. -/
theorem test_w5 : after (.poll true true true)
    (State.reset.setTransport { clkPrev := some false, sdCnt := 0, fifo := [] })
    (fun t => (t.shifter.rxSr, t.shifter.rxCnt, t.shifter.txCnt, t.transport.fifo)) =
      some (0x01#8, 1, 1, []) := by decide

/-- W6: the count saturates one above the threshold. -/
theorem test_w6 :
    after (.selectMonitor false)
      { State.reset with
        cfg := { Cfg.cfg0 with sdIdleThreshold := 2 }
        transport := { clkPrev := none, sdCnt := 3, fifo := [] } }
      (fun t => t.transport.sdCnt) = some 3 := by decide

/-- W7: with threshold 0 the bus reset fires in the first deasserted poll. -/
theorem test_w7 : after (.poll false false false)
    { State.reset with
      cfg := { Cfg.cfg0 with sdIdleThreshold := 0 }
      frame := { Frame.reset with ps := .sync2 } }
    (fun t => (t.transport.sdCnt, t.frame.ps)) = some (1, .idle) := by decide

/-- W9: a full backlog is an overflow with the effects of a bus reset; the bit is lost. -/
theorem test_w9 : after (.sample true)
    { State.reset with
      transport := { clkPrev := some true, sdCnt := 0, fifo := [⟨true, .rising⟩] }
      frame := { Frame.reset with ps := .readPayload } }
    (fun t => (t.transport.fifo, t.frame.ps, t.out)) =
      some ([], .idle, [.protocolError .transportOverflow 0]) := by decide

/-- W3: with the falling edge active, the second poll of `1, 0` is an edge. -/
theorem test_w3 : after (.edgeDetect false)
    { State.reset with
      cfg := { Cfg.cfg0 with activeEdge := .falling }
      transport := { clkPrev := some true, sdCnt := 0, fifo := [] } }
    (fun t => t.ret.edge) = some true := by decide

/-- S-3: the line's byte moves left, and the eighth edge loads the pending byte. -/
theorem test_s3 : after .txBit
      (State.reset.setShifter { Shifter.reset with txSr := 0x81#8, txNext := 0x02#8 })
      (fun t => (t.shifter.txSr, t.so)) = some (0x02#8, false) ∧
    after .txBit
      (State.reset.setShifter { Shifter.reset with txSr := 0x80#8, txCnt := 7, txNext := 0x02#8 })
      (fun t => (t.shifter.txSr, t.shifter.txNext)) = some (0x02#8, 0x00#8) := by decide

/-- S-6: the third of the bits `1, 0, 1`, then the bus reset clears the partial byte. -/
theorem test_s6 : after (.rxBit true)
      (State.reset.setShifter { Shifter.reset with rxSr := 0x0A#8, rxCnt := 2 })
      (fun t => (t.shifter.rxSr, t.shifter.rxCnt)) = some (0x15#8, 3) ∧
    after .busReset
      (State.reset.setShifter { Shifter.reset with rxSr := 0x15#8, rxCnt := 3, txCnt := 3 })
      (fun t => t.shifter) = some Shifter.reset := by decide

/-- P5, edge 7: the keep-alive byte completes, `busy` is in the status byte on the line. -/
theorem test_p5 : after (.shiftEdge false)
    { packet 0x0F#8 0x00#8 [] with
      shifter := { rxSr := 0#8, rxCnt := 7, txSr := 0x80#8, txCnt := 7, txNext := 0#8 }
      flags := { Flags.reset with busy := true } }
    (fun t => (t.shifter.txSr, t.shifter.txNext, t.frame.ps)) =
      some (0x02#8, 0x00#8, .idle) := by decide

/-- B7: a sync value as command byte is a command. -/
theorem test_b7 : after (.byteIn 0x88#8) (withFrame { Frame.reset with ps := .sync2 })
    (fun t => (t.frame.ps, t.frame.cmd, t.frame.sum)) =
      some (.readCompression, 0x88#8, 0x0088#16) := by decide

/-- B8: the raw compression byte is kept. -/
theorem test_b8 : after (.rdComp 0x02#8)
    (withFrame { Frame.reset with ps := .readCompression, cmd := 0x04#8, sum := 0x0004#16 })
    (fun t => (t.frame.comp, t.frame.sum, t.frame.ps, t.frame.bidx)) =
      some (0x02#8, 0x0006#16, .readLength, false) := by decide

/-- B9 and B10: the length, low byte first. -/
theorem test_b9_b10 :
    after (.rdLenLo 0x80#8) (withFrame { Frame.reset with ps := .readLength, sum := 0x0004#16 })
      (fun t => (t.frame.len, t.frame.sum, t.frame.bidx)) = some (0x0080#16, 0x0084#16, true) ∧
    after (.rdLenHi 0x02#8)
      (withFrame
        { Frame.reset with
          ps := .readLength, bidx := true, len := 0x0080#16, sum := 0x0084#16, pbuf := [0x77#8] })
      (fun t => (t.frame.len, t.frame.sum, t.frame.ps, t.frame.pbuf)) =
        some (0x0280#16, 0x0086#16, .readPayload, []) := by decide

/-- B11: a zero length skips the payload. -/
theorem test_b11 : after (.rdLenHi 0x00#8)
    (withFrame { Frame.reset with ps := .readLength, bidx := true, sum := 0x000F#16 })
    (fun t => (t.frame.ps, t.frame.bidx)) = some (.readChecksum, false) := by decide

/-- B12 and B13: payload bytes are appended and summed; the last leads on. -/
theorem test_b12_b13 :
    after (.rdPay 0xAA#8)
      (withFrame { Frame.reset with ps := .readPayload, len := 2#16, sum := 0x0006#16 })
      (fun t => (t.frame.pbuf, t.frame.pidx, t.frame.sum, t.frame.ps)) =
        some ([0xAA#8], 1, 0x00B0#16, .readPayload) ∧
    after (.rdPay 0x55#8)
      (withFrame
        { Frame.reset with
          ps := .readPayload, len := 2#16, pidx := 1, pbuf := [0xAA#8], sum := 0x00B0#16 })
      (fun t => (t.frame.pbuf, t.frame.sum, t.frame.ps)) =
        some ([0xAA#8, 0x55#8], 0x0105#16, .readChecksum) := by decide

/-- B15: the low checksum byte is not summed. -/
theorem test_b15 : after (.rdCksLo 0x05#8)
    (withFrame { Frame.reset with ps := .readChecksum, sum := 0x0105#16 })
    (fun t => (t.frame.cks, t.frame.bidx, t.frame.sum)) =
      some (0x0005#16, true, 0x0105#16) := by decide

/-- B16 and B17: a match and a mismatch; both leave the keep-alive byte pending. -/
theorem test_b16_b17 :
    after (.rdCksHi 0x01#8)
      (withFrame
        { Frame.reset with ps := .readChecksum, bidx := true, cks := 0x0005#16, sum := 0x0105#16 })
      (fun t => (t.frame.ckOk, t.flags.checksumError, t.shifter.txNext, t.out)) =
        some (true, false, 0x81#8, []) ∧
    after (.rdCksHi 0x00#8)
      (withFrame
        { Frame.reset with ps := .readChecksum, bidx := true, cks := 0x0005#16, sum := 0x0105#16 })
      (fun t => (t.frame.ckOk, t.flags.checksumError, t.frame.ps, t.out)) =
        some (false, true, .readKeepAlive, [.protocolError .checksumMismatch 0]) := by decide

/-- B18: dispatch comes before the status byte is formed. -/
theorem test_b18 : after (.rdKa 0x5A#8) (packet 0x04#8 0x00#8 [0xAA#8, 0x55#8])
    (fun t => (t.shifter.txNext, t.frame.ps, t.out)) =
      some (0x10#8, .idle, [.protocolError .malformedTileData 0]) := by decide

/-- P-1: `INITIALIZE` clears image and flags, with no event. -/
theorem test_p_1 : after .cmdInit
    { packet 0x01#8 0x00#8 [] with
      rows := eightRows, flags := { Flags.reset with packetError := true, busy := true } }
    (fun t => (t.rows, t.flags, t.out)) = some ([], Flags.reset, []) := by decide

/-- P-2: a packet whose checksum did not match is not dispatched. -/
theorem test_p_2 : after .dispatch
    { withFrame { Frame.reset with ps := .readKeepAlive, cmd := 0x01#8 } with rows := eightRows }
    (fun t => (t.rows.length, t.out)) = some (8, []) := by decide

/-- P-7: a short `PRINT` payload keeps the image. -/
theorem test_p_7 : after .cmdPrint
    { packet 0x02#8 0x00#8 [0x01#8, 0x00#8, 0xE4#8] with rows := eightRows }
    (fun t => (t.rows.length, t.flags.packetError, t.out)) =
      some (8, true, [.protocolError .malformedPrintParameters 0]) := by decide

/-- S7: `PRINT` of an empty image: height 0, margins in the parameters only. -/
theorem test_s7_vector : after .cmdPrint (packet 0x02#8 0x00#8 [0x01#8, 0x13#8, 0xE4#8, 0x40#8])
    (fun t => t.out) =
      some [.imageReady ⟨160, 2, 0, [], 1#4, 3#4⟩ ⟨0x01#8, 1#4, 3#4, 0xE4#8, 0x40#8⟩] := by decide

/-- P-11: an unknown command. -/
theorem test_p_11 : after (.cmdUnknown 0x08#8) (packet 0x08#8 0x00#8 [])
    (fun t => (t.flags.unsupported, t.out)) =
      some (true, [.protocolError .unsupportedCommand 0]) := by decide

/-- E-1: the decompressor's error wins over the size test. -/
theorem test_e_1 : after .cmdData (packet 0x04#8 0x01#8 [0x00#8, 0x11#8, 0x80#8])
    (fun t => (t.rows, t.flags.packetError, t.out)) =
      some ([], true, [.protocolError .truncatedRun 0]) := by decide

/-- E-2: one byte decompressed is no tile row. -/
theorem test_e_2 : after .cmdData (packet 0x04#8 0x01#8 [0x00#8, 0x11#8])
    (fun t => t.out) = some [.protocolError .malformedTileData 0] := by decide

/-- R-2, R-4, R-7, R-8, R-9, R-10. -/
theorem test_decompress :
    decompressBytes [0x80#8, 0x5A#8] = some [0x5A#8] ∧
    decompressBytes [0x00#8, 0x99#8] = some [0x99#8] ∧
    decompressBytes [0x82#8, 0xAA#8, 0x01#8, 0x11#8, 0x22#8] =
      some [0xAA#8, 0xAA#8, 0xAA#8, 0x11#8, 0x22#8] ∧
    decompressBytes [0x81#8, 0x81#8] = some [0x81#8, 0x81#8] ∧
    decompressBytes [0x00#8, 0x80#8] = some [0x80#8] ∧
    decompressBytes [0x80#8, 0x01#8, 0x80#8, 0x02#8] = some [0x01#8, 0x02#8] := by decide

/-- R-11, R-12, R-13. -/
theorem test_truncated :
    decompressBytes [0x80#8] = none ∧ decompressBytes [0x01#8, 0xAA#8] = none ∧
    decompressBytes [0xFF#8, 0x00#8, 0x00#8] = none := by decide

/-- A-2: one byte is no tile row. -/
theorem test_a_2 : after (.append [0x00#8]) State.reset (fun t => (t.rows, t.out)) =
    some ([], [.protocolError .malformedTileData 0]) := by decide

/-- A-7: the two planes of one row of the first tile. -/
theorem test_a_7 :
    tilePixel ([0x80#8, 0x01#8] ++ List.replicate 318 0#8) 0 0 = 1#2 ∧
    tilePixel ([0x80#8, 0x01#8] ++ List.replicate 318 0#8) 0 7 = 2#2 ∧
    tilePixel ([0x80#8, 0x01#8] ++ List.replicate 318 0#8) 0 1 = 0#2 := by decide

/-- A-8 and A-9: tile 19, row 7, column 7; tile 3, row 2, column 3. -/
theorem test_a_8_a_9 :
    tilePixel (List.replicate 318 0#8 ++ [0x01#8, 0#8]) 7 159 = 1#2 ∧
    tilePixel (List.replicate 53 0#8 ++ [0x10#8] ++ List.replicate 266 0#8) 2 27 = 2#2 := by decide

/-- A-12: margins are not applied to an empty image. -/
theorem test_a_12 : after (.finalize ⟨0#8, 15#4, 15#4, 0#8, 0#8⟩) State.reset
    (fun t => t.ret.image) = some (some ⟨160, 2, 0, [], 15#4, 15#4⟩) := by decide

/-- P-11, P-10, S1: the status bytes of single flags. -/
theorem test_status_bytes :
    statusByte (State.reset.setFlags { Flags.reset with unsupported := true }) = 0x40#8 ∧
    statusByte (State.reset.setFlags { Flags.reset with busy := true }) = 0x02#8 ∧
    statusByte (State.reset.setFlags { Flags.reset with checksumError := true }) = 0x01#8 ∧
    statusByte (State.reset.setFlags { Flags.reset with packetError := true }) = 0x10#8 := by decide

/-! ## Witnesses: the hypotheses of each statement are met -/

/-- `SelectMonitorCountsAndFiresOnce`: each clause, at the values where clauses meet. -/
theorem test_witness_select_monitor :
    true = State.reset.cfg.selectAsserted ∧ false ≠ State.reset.cfg.selectAsserted ∧
    (writeSdCnt 999 State.reset).transport.sdCnt < State.reset.cfg.sdIdleThreshold ∧
    (writeSdCnt 1000 State.reset).transport.sdCnt = State.reset.cfg.sdIdleThreshold ∧
    State.reset.cfg.sdIdleThreshold < (writeSdCnt 1001 State.reset).transport.sdCnt := by decide

/-- The reset state with the clock low. -/
def clockLow : State := State.reset.setTransport { clkPrev := some false, sdCnt := 0, fifo := [] }

/-- `PollRunsItsPartsInOrder`: both clauses. -/
theorem test_witness_poll :
    after (.selectMonitor true) clockLow (fun m => decide
      (m.transport.clkPrev = some (!true) ∧ (true = true ↔ m.cfg.activeEdge = .rising))) =
        some true ∧
    after (.selectMonitor true) State.reset (fun m => decide
      (¬(m.transport.clkPrev = some (!true) ∧ (true = true ↔ m.cfg.activeEdge = .rising)))) =
        some true := by decide

/-- `PollsWithoutAnEdgeHoldEverything`: levels without an active edge; and levels of Select that fire no
bus reset, at threshold 0 with Select asserted, one deasserted poll short of firing, and beyond the
threshold, where it has fired. -/
theorem test_witness_no_edge :
    NoActiveEdge .rising State.reset.transport.clkPrev [true, false, false] ∧
    NoActiveEdge .rising (some true) [true, true] ∧ NoBusReset true 0 0 [true, true, true] ∧
    NoBusReset true 2 0 [false, false, true, false, false] ∧
    ¬NoBusReset true 2 0 [false, false, false] ∧ NoBusReset true 2 3 [false, false] := by
  simp [NoActiveEdge, NoBusReset, State.reset, State.initial, Transport.reset]

/-- `SampleQueuesTheBitOrOverflows`: both clauses, at the boundary. -/
theorem test_witness_sample :
    State.reset.transport.fifo.length < State.reset.cfg.backlogDepth ∧
    State.reset.cfg.backlogDepth ≤
      (State.reset.setTransport ⟨none, 0, [⟨true, .rising⟩]⟩).transport.fifo.length := by decide

/-- `ActiveEdgeShiftsExactlyOneBit`. -/
theorem test_witness_active_edge :
    clockLow.cfg.wf = true ∧ clockLow.transport.fifo = [] ∧
    clockLow.transport.clkPrev = some (!true) ∧
    (true = true ↔ clockLow.cfg.activeEdge = .rising) := by decide

/-- `RxBitShiftsInAndHandsOver` and `TxBitShiftsOutAndTakesTheNextByte`: both clauses of each. -/
theorem test_witness_bits :
    State.reset.shifter.rxCnt ≠ 7 ∧ State.reset.shifter.txCnt ≠ 7 ∧
    (State.reset.setShifter { Shifter.reset with rxCnt := 7 }).shifter.rxCnt = 7 ∧
    (State.reset.setShifter { Shifter.reset with txCnt := 7 }).shifter.txCnt = 7 := by decide

/-- `EightBitsFormByteMostSignificantFirst`, `ByteGoesOutMostSignificantFirst` (its last bit) and
`ByteSlotHandlesTheByteThenLoadsTheReply`. -/
theorem test_witness_byte_slot :
    State.reset.shifter.rxCnt = 0 ∧ State.reset.shifter.txCnt = 0 ∧ 7 < 8 := by decide

/-- The clauses of the byte handlers' statements that name a packet state and a sub-index. -/
theorem test_witness_handlers :
    State.reset.frame.ps = .idle ∧
    (withFrame { Frame.reset with ps := .sync1 }).frame.ps = .sync1 ∧
    (withFrame { Frame.reset with ps := .sync2 }).frame.ps = .sync2 ∧
    (withFrame { Frame.reset with ps := .readCompression }).frame.ps = .readCompression ∧
    (withFrame { Frame.reset with ps := .readLength }).frame.ps = .readLength ∧
    (withFrame { Frame.reset with ps := .readLength }).frame.bidx = false ∧
    (withFrame { Frame.reset with ps := .readLength, bidx := true }).frame.bidx = true ∧
    (withFrame { Frame.reset with ps := .readPayload }).frame.ps = .readPayload ∧
    (withFrame { Frame.reset with ps := .readChecksum }).frame.ps = .readChecksum ∧
    (withFrame { Frame.reset with ps := .readChecksum, bidx := true }).frame.bidx = true ∧
    (withFrame { Frame.reset with ps := .readKeepAlive }).frame.ps = .readKeepAlive := by decide

/-- `PayloadByteIsAppendedAndSummed`: an inner and the last payload byte. -/
theorem test_witness_payload :
    (withFrame { Frame.reset with len := 2#16 }).frame.pidx + 1 ≠
      (withFrame { Frame.reset with len := 2#16 }).frame.len.toNat ∧
    (withFrame { Frame.reset with len := 2#16, pidx := 1 }).frame.pidx + 1 =
      (withFrame { Frame.reset with len := 2#16, pidx := 1 }).frame.len.toNat := by decide

/-- `ChecksumBytesAreComparedAndTheFrameGoesOn`: a match and a mismatch in the high byte alone. -/
theorem test_witness_checksum :
    (0x01#8 ++ (0x0005#16).extractLsb' 0 8 : Half) = 0x0105#16 ∧
    (0x00#8 ++ (0x0005#16).extractLsb' 0 8 : Half) ≠ 0x0105#16 := by decide

/-- `StatusByteHoldsTheFlags`: a legal configuration, and a position of no flag. -/
theorem test_witness_status :
    State.reset.cfg.wf = true ∧ (2 : Fin 8) ≠ State.reset.cfg.posChecksumError ∧
    (2 : Fin 8) ≠ State.reset.cfg.posBusy ∧ (2 : Fin 8) ≠ State.reset.cfg.posPacketError ∧
    (2 : Fin 8) ≠ State.reset.cfg.posUnsupported := by decide

/-- `DispatchRunsTheSelectedCommand`: both clauses. -/
theorem test_witness_dispatch :
    State.reset.frame.ckOk = false ∧ (packet 0x04#8 0x00#8 []).frame.ckOk = true := by decide

/-- `DataAppendsThePayloadOrReportsTruncation`: its three clauses. -/
theorem test_witness_data :
    (packet 0x04#8 0x00#8 []).frame.comp = 0x00#8 ∧
    (packet 0x04#8 0x80#8 [0x80#8, 0x5A#8]).frame.comp ≠ 0x00#8 ∧
    decompressBytes (packet 0x04#8 0x80#8 [0x80#8, 0x5A#8]).frame.pbuf = some [0x5A#8] ∧
    decompressBytes (packet 0x04#8 0x01#8 [0x80#8]).frame.pbuf = none := by decide

/-- `PrintEmitsTheFinishedImageOrReportsShortPayload`: three bytes are short, four are not; an empty
and a filled image. -/
theorem test_witness_print :
    (packet 0x02#8 0x00#8 [0x01#8, 0x13#8, 0xE4#8]).frame.pbuf.length < 4 ∧
    (packet 0x02#8 0x00#8 [0x01#8, 0x13#8, 0xE4#8, 0x40#8]).frame.pbuf =
      0x01#8 :: 0x13#8 :: 0xE4#8 :: 0x40#8 :: [] ∧
    (packet 0x02#8 0x00#8 []).rows = [] ∧ (State.reset.setRows eightRows).rows ≠ [] := by decide

/-- `DecompressFollowsTheControlBytes`: each clause at a shortest and a truncated run. -/
theorem test_witness_controls :
    (0x80#8).getLsbD 7 = true ∧ (0x00#8).getLsbD 7 = false ∧
    ([] : List Byte).length < (0x00#8).toNat + 1 ∧
    (0x00#8).toNat + 1 ≤ [0x99#8].length := by decide

/-- `DecompressUndoesEveryCompressor`: a repeat run of 128 and a literal run of 128 bytes. -/
theorem test_witness_runs :
    ∀ r ∈ [Run.repeats 127#7 0x00#8, Run.literal 0x00#8 (List.replicate 127 0x00#8)], r.ok := by
  simp [Run.ok]

/-- `DecompressedSizeIsBounded`. -/
theorem test_witness_size : decompressBytes [0x82#8, 0xAA#8] = some [0xAA#8, 0xAA#8, 0xAA#8] := by
  decide

/-- A state whose decompressor has input left. -/
def rleReady : State :=
  State.reset.setRet { Returned.reset with rle := ⟨[0x11#8, 0x22#8], [], false⟩ }

/-- `RleOperationsOnTheirOwn`: each clause. -/
theorem test_witness_rle :
    rleReady.ret.rle.input = 0x11#8 :: [0x22#8] ∧ State.reset.ret.rle.input = [] ∧
    (1#7).toNat + 1 ≤ rleReady.ret.rle.input.length ∧
    rleReady.ret.rle.input.length < (2#7).toNat + 1 := by decide

/-- Eight rows in a buffer of a given maximum. -/
def buffer (maxHeight : Nat) : State :=
  { State.reset with cfg := { Cfg.cfg0 with maxHeight }, rows := eightRows }

theorem eightRows_length : eightRows.length = 8 := List.length_replicate

theorem fullTileRow_length : fullTileRow.length = 320 := List.length_replicate

/-- `AppendTestsThenAppendsWholeTileRows`: each clause, the height test at its boundary (A-4, A-5). -/
theorem test_witness_append :
    [0x00#8].length % 320 ≠ 0 ∧ fullTileRow.length % 320 = 0 ∧
    (buffer 8).cfg.maxHeight < (buffer 8).rows.length + 8 * (fullTileRow.length / 320) ∧
    (buffer 16).rows.length + 8 * (fullTileRow.length / 320) ≤ (buffer 16).cfg.maxHeight := by
  simp [buffer, eightRows_length, fullTileRow_length]

/-- `AppendPlacesEveryPixel`: an accepted tile row, and its last pixel. -/
theorem test_witness_pixels :
    fullTileRow.length % 320 = 0 ∧
    (buffer 16).rows.length + 8 * (fullTileRow.length / 320) ≤ (buffer 16).cfg.maxHeight ∧
    exec (.append fullTileRow) (buffer 16) = .next (appendData fullTileRow (buffer 16)) ∧
    0 < fullTileRow.length / 320 ∧ 7 < 8 ∧ 19 < 20 := by
  refine ⟨?_, ?_, rfl, ?_, by decide, by decide⟩ <;>
    simp [buffer, eightRows_length, fullTileRow_length]

/-- `TileRowDecodeIsABijectionOntoPixels`: two decodings of one tile row from one state, and an 8 by 160
picture. -/
theorem test_witness_tile_row :
    exec (.tileRowDecode (Vector.replicate 320 0xFF#8)) State.reset =
      .next (State.reset.setRet
        { State.reset.ret with
          tileRow := decodeTileRow (Vector.replicate 320 0xFF#8).toList }) ∧
    eightRows.length = 8 ∧ ∀ r ∈ eightRows, r.length = 160 :=
  ⟨rfl, eightRows_length, fun _ hr => by
    rw [List.eq_of_mem_replicate hr]
    exact List.length_replicate⟩

/-- `FinalizeReturnsTheImageAndClears`: an empty and a filled buffer of 160-pixel rows. -/
theorem test_witness_finalize :
    State.reset.rows = [] ∧ (State.reset.setRows eightRows).rows ≠ [] ∧
    ∀ r ∈ (State.reset.setRows eightRows).rows, r.length = 160 := by
  refine ⟨rfl, List.cons_ne_nil _ _, fun r hr => ?_⟩
  rw [List.eq_of_mem_replicate hr]
  exact List.length_replicate

/-- `StepRunsTheDecodedEvent`. -/
theorem test_witness_step :
    (State.reset.withFetchWord 3 6).cfg.wf = true ∧
    (State.reset.withFetchWord 3 6).inputs = ⟨.poll, [0x06#8]⟩ :: [] ∧
    decode Cfg.cfg0 (.event .poll) [0x06#8] = .instr (.poll true true false) := by decide

/-- `StepWithoutALegalEvent`: its three clauses. -/
theorem test_witness_no_event :
    State.reset.cfg.wf = true ∧ State.reset.inputs = [] ∧
    (State.reset.setInputs [⟨.poll, [0x08#8]⟩]).inputs = ⟨.poll, [0x08#8]⟩ :: [] ∧
    decode Cfg.cfg0 (.event .poll) [0x08#8] = .reject .unusedBits ∧
    (State.initial { Cfg.cfg0 with backlogDepth := 0 }).cfg.wf = false := by decide

/-- `DecodeUndoesEncode` and `EncodeUndoesDecode`. -/
theorem test_witness_encode :
    Cfg.cfg0.wf = true ∧ Instr.wellFormed Cfg.cfg0 (.cmdUnknown 0x03#8) = true ∧
    encode Cfg.cfg0 (.cmdUnknown 0x03#8) = some (.command, [0x03#8]) ∧
    decode Cfg.cfg0 .command [0x03#8] = .instr (.cmdUnknown 0x03#8) := by decide

/-- A checksum-correct `INITIALIZE` completes next, an image and error flags standing. -/
def clearing : State :=
  { State.reset with rows := [blankRow], flags := ⟨true, true, true, true⟩ }.withFetchWord 8 0x01

/-- The reset state with one deasserted `POLL` pending and an idle count. -/
def deasserted (n : Nat) : State := (writeSdCnt n State.reset).setInputs [⟨.poll, [0x00#8]⟩]

/-- `StepFollowsTheStateGraph`: an event that completes a byte, two that force `Idle`, the second at the
threshold, and one beyond it that does neither. -/
theorem test_witness_graph :
    CompletesByte clearing 0x00#8 ∧ ForcesIdle (State.reset.withFetchWord 0 0) ∧
    ForcesIdle (deasserted 1000) ∧ ¬ForcesIdle (deasserted 1001) ∧
    ∀ b, ¬CompletesByte (deasserted 1001) b := by
  refine ⟨⟨true, false, true, ⟨_, _, rfl, by decide⟩, ⟨by decide, by decide⟩, fun h => h.1 rfl,
    by decide, by decide⟩, .inl ⟨_, _, rfl, by decide⟩,
    .inr ⟨false, false, false, ⟨_, _, rfl, by decide⟩, by decide, by decide⟩, ?_, ?_⟩
  · rintro (⟨_, _, h, hd⟩ | ⟨_, _, _, -, -, h⟩)
    · cases h
      cases hd
    · cases h
  · rintro b ⟨_, _, _, -, -, -, h, -⟩
    cases h

/-- The step invariants, `StepFollowsTheStateGraph`, `StepEmitsAtMostOneEvent`,
`FlagsReachOnlyTheReply` and `StepNeverWritesTheConfiguration`: a step from a state that keeps the link
invariant. -/
theorem test_witness_link :
    LinkInv clearing ∧ (afterStep clearing fun t => t.frame.ps) = some .idle := by
  refine ⟨⟨rfl, rfl, Nat.zero_le _⟩, by decide⟩

/-- `StepKeepsTheFrameInvariant`, `StepKeepsTheRunningSum` and `StepKeepsTheImageInvariant`: states that
keep the invariants and step on. -/
theorem test_witness_invariants :
    FrameInv State.reset ∧ SumInv State.reset ∧ ImageInv State.reset ∧
    (afterStep State.reset fun t => t.frame.ps) = some .idle :=
  ⟨⟨rfl, Nat.zero_le _, nofun, by decide, nofun⟩, trivial, ⟨Nat.zero_le _, rfl, nofun⟩, by decide⟩

/-- `ErrorFlagsAreSticky` and `OnlyImageCommandsChangeTheImage`: a step that clears flags and image. -/
theorem test_witness_clearing :
    clearing.flags.packetError = true ∧ clearing.rows ≠ [] ∧
    (afterStep clearing fun t => (t.flags.packetError, t.rows)) = some (false, []) := by decide

/-- `TransportOverflowIsUnreachable`: a trace that holds such an event, kept by a step. -/
theorem test_witness_overflow :
    let s := State.reset.setOut [.protocolError .transportOverflow 0]
    LinkInv s ∧ (afterStep s fun t => t.out) = some [.protocolError .transportOverflow 0] :=
  ⟨⟨rfl, rfl, Nat.zero_le _⟩, by decide⟩

/-- `CorrectFrameIsDispatched` and `WrongChecksumIsRecordedAndAnswered`: S1's frame, whose sum is
`0x0105` and which carries `0x0106`. -/
theorem test_witness_frame :
    State.reset.frame.ps = .idle ∧ [0xAA#8, 0x55#8].length < 65536 ∧
    frameSum 0x04#8 0x00#8 [0xAA#8, 0x55#8] = 0x0105#16 ∧
    (0x0106#16 : Half) ≠ frameSum 0x04#8 0x00#8 [0xAA#8, 0x55#8] := by decide

end Sys2Proof.Tests
end

/-! Proofs of the encoding obligations: the handler table, little-endian fields, the status byte and
the pixels of an appended payload (spec/30_encoding.md R96 to R98, R106, R110). -/

namespace Sys2Proof.Machine

/-! ## Byte handlers (R98, R176) -/

/-- The statement's table of handlers is the decoder's. -/
theorem byteHandler_eq_decodeByte (ps : PacketState) (bidx : Bit) (b : Byte) :
    byteHandler ps bidx b = (decodeByte ps bidx b).instr := by
  unfold byteHandler decodeByte
  cases ps with
  | idle => exact (apply_ite ByteRow.instr (b = Config.sync1) .idleSync1 (.idleSkip b)).symm
  | sync1 => exact (apply_ite ByteRow.instr (b = Config.sync2) .sync1Sync2 (.sync1Resync b)).symm
  | readLength => cases bidx <;> rfl
  | readChecksum => cases bidx <;> rfl
  | sync2 => rfl
  | readCompression => rfl
  | readPayload => rfl
  | readKeepAlive => rfl

/-- The operation of a level-B row, executed, is the row's handler. -/
theorem exec_byteRow (row : ByteRow) (s : State) : exec row.instr s = .next (runByteRow row s) := by
  cases row <;> rfl

/-- Settles O17: the handler of the table is the one `BYTE_IN` decodes and runs. -/
theorem byteInSelectsOneHandler : Obligations.ByteInSelectsOneHandler := by
  intro s b
  refine ⟨byteIn b s, rfl, ?_⟩
  rw [byteHandler_eq_decodeByte, exec_byteRow]
  rfl

/-! ## Little-endian fields (R96, R97) -/

/-- Two length bytes leave the second above the first (R96). -/
theorem rdLenHi_rdLenLo_len (s : State) (lo hi : Byte) :
    (rdLenHi hi (rdLenLo lo s)).frame.len = hi ++ lo :=
  setHighByte_setLowByte s.frame.len lo hi

/-- Two checksum bytes leave the second above the first, and the comparison of all 16 bits with the
running sum (R97, R189). -/
theorem rdCksHi_rdCksLo_frame (s : State) (lo hi : Byte) :
    (rdCksHi hi (rdCksLo lo s)).frame =
      { s.frame with
        cks := hi ++ lo, bidx := false, ckOk := (hi ++ lo : Half) == s.frame.sum,
        ps := .readKeepAlive } := by
  simp [rdCksHi, compareChecksum, rdCksLo, setHighByte_setLowByte]

/-- Settles O22: both fields are the concatenation of the two bytes, whose value is
`first + 256 * second`. -/
theorem lengthAndChecksumAreLittleEndian : Obligations.LengthAndChecksumAreLittleEndian := by
  intro s lo hi
  refine ⟨⟨rdLenHi hi (rdLenLo lo s), rfl, ?_⟩, rdCksHi hi (rdCksLo lo s), rfl, ?_, ?_⟩
  · rw [rdLenHi_rdLenLo_len, toNat_append_bytes]
  · rw [rdCksHi_rdCksLo_frame, toNat_append_bytes]
  · rw [rdCksHi_rdCksLo_frame]
    exact beq_iff_eq

/-! ## The status byte (R106) -/

/-- A legal configuration keeps the five flag positions apart (R7). -/
theorem positions_nodup_of_wf {c : Cfg} (h : c.wf = true) :
    [c.posChecksumError, c.posBusy, c.posPacketError, c.posPaperOut, c.posUnsupported].Nodup := by
  simp only [Cfg.wf, Cfg.positionsDistinct, Bool.and_eq_true, decide_eq_true_eq] at h
  obtain ⟨⟨⟨-, hpos⟩, -⟩, -⟩ := h
  exact hpos

/-- A bit of the status byte is set if some set flag stands there (R106, R36). -/
theorem getLsbD_statusByte (s : State) (p : Fin 8) :
    (statusByte s).getLsbD p.val =
      (s.flags.checksumError && decide (p = s.cfg.posChecksumError) ||
        s.flags.busy && decide (p = s.cfg.posBusy) ||
        s.flags.packetError && decide (p = s.cfg.posPacketError) ||
        s.flags.unsupported && decide (p = s.cfg.posUnsupported)) := by
  simp only [statusByte, BitVec.getLsbD_or, getLsbD_flagAt, Bool.false_and, Bool.or_false]

/-- Settles O26: the positions are pairwise distinct, so only its own flag stands at each. -/
theorem statusByteHoldsTheFlags : Obligations.StatusByteHoldsTheFlags := by
  intro s hwf
  have hpos := positions_nodup_of_wf hwf
  simp only [List.nodup_cons, List.mem_cons, List.not_mem_nil, or_false, not_or] at hpos
  obtain ⟨⟨hcb, hcp, hco, hcu⟩, ⟨hbp, hbo, hbu⟩, ⟨hpo, hpu⟩, hou, -⟩ := hpos
  simp only [getLsbD_statusByte]
  refine ⟨?_, ?_, ?_, ?_, ?_, ?_⟩
  · simp [hcb, hcp, hcu]
  · simp [Ne.symm hcb, hbp, hbu]
  · simp [Ne.symm hcp, Ne.symm hbp, hpu]
  · simp [Ne.symm hco, Ne.symm hbo, Ne.symm hpo, hou]
  · simp [Ne.symm hcu, Ne.symm hbu, Ne.symm hpu]
  · intro p hc hb hp hu
    simp [hc, hb, hp, hu]

/-! ## The pixels of an appended payload (R110) -/

/-- An accepted payload is appended, tile row by tile row (R251). -/
theorem appendData_of_fits (s : State) (data : List Byte) (hsize : data.length % 320 = 0)
    (hfits : s.rows.length + 8 * (data.length / 320) ≤ s.cfg.maxHeight) :
    appendData data s = s.setRows (s.rows ++ decodeTileRows data (data.length / 320)) := by
  rcases appendData_cases s data with ⟨h, -⟩ | ⟨-, h, -⟩ | ⟨-, -, h⟩
  · exact absurd hsize h
  · omega
  · exact h

/-- Pixel row `r` of tile row `k` of a payload, pixel by pixel (R251, R252). -/
theorem decodeTileRows_row (data : List Byte) {count k r : Nat} (hk : k < count) (hr : r < 8) :
    (decodeTileRows data count)[8 * k + r]? = some
      ((List.range 160).map fun x => tilePixel ((data.drop (320 * k)).take 320) r x) := by
  rw [decodeTileRows_getElem? data hk hr, decodeTileRow_getElem? _ hr]

/-- A byte of a tile row, read from the payload (R246). -/
theorem getD_tileRow {data : List Byte} {k i : Nat} {b : Byte} (hi : i < 320)
    (h : data[320 * k + i]? = some b) : ((data.drop (320 * k)).take 320).getD i 0 = b := by
  rw [List.getD_eq_getElem?_getD, getElem?_tileRow data k hi, h, Option.getD_some]

/-- Settles O37: the row is its tile row's, and its pixel takes its two planes from the payload. -/
theorem appendPlacesEveryPixel : Obligations.AppendPlacesEveryPixel := by
  intro s t data hsize hfits hexec k r j c hk hr hj hc
  have ht : t = s.setRows (s.rows ++ decodeTileRows data (data.length / 320)) := by
    rw [← appendData_of_fits s data hsize hfits]
    exact (Host.Outcome.next.inj hexec).symm
  have hrow : t.rows[s.rows.length + 8 * k + r]? = some
      ((List.range 160).map fun x => tilePixel ((data.drop (320 * k)).take 320) r x) := by
    rw [ht, State.setRows_rows, Nat.add_assoc, List.getElem?_append_right (Nat.le_add_right _ _),
      Nat.add_sub_cancel_left]
    exact decodeTileRows_row data hk hr
  obtain ⟨lo, hlo⟩ : ∃ lo, data[320 * k + (16 * j + 2 * r)]? = some lo :=
    ⟨_, List.getElem?_eq_getElem (by omega)⟩
  obtain ⟨hi, hhi⟩ : ∃ hi, data[320 * k + (16 * j + 2 * r + 1)]? = some hi :=
    ⟨_, List.getElem?_eq_getElem (by omega)⟩
  refine ⟨_, lo, hi, hrow, ?_, ?_, ?_⟩
  · simpa only [Nat.add_assoc] using hlo
  · simpa only [Nat.add_assoc] using hhi
  · rw [List.getElem?_map, List.getElem?_range (by omega), Option.map_some, tilePixel_eq _ r hc,
      getD_tileRow (by omega) hlo, getD_tileRow (by omega) hhi]

end Sys2Proof.Machine

/-! Proofs of the bit transport's obligations: the select monitor, `POLL` and its parts, and polls
without an active edge (spec/40_bit_transport.md R130 to R140). -/

namespace Sys2Proof.Machine

/-! ## The select monitor (R131) -/

/-- Select asserted restarts the idle count. -/
theorem selectMonitor_of_asserted {s : State} {sd : Bit} (h : sd = s.cfg.selectAsserted) :
    selectMonitor sd s = writeSdCnt 0 s :=
  if_pos h

/-- Below the threshold a deasserted poll counts one. -/
theorem selectMonitor_of_lt {s : State} {sd : Bit} (h : sd ≠ s.cfg.selectAsserted)
    (hlt : s.transport.sdCnt < s.cfg.sdIdleThreshold) :
    selectMonitor sd s = writeSdCnt (s.transport.sdCnt + 1) s := by
  rw [selectMonitor, if_neg h, if_pos hlt.le, if_neg (by omega)]

/-- At the threshold a deasserted poll fires the bus reset. -/
theorem selectMonitor_of_eq {s : State} {sd : Bit} (h : sd ≠ s.cfg.selectAsserted)
    (heq : s.transport.sdCnt = s.cfg.sdIdleThreshold) :
    selectMonitor sd s = resetBus (writeSdCnt (s.cfg.sdIdleThreshold + 1) s) := by
  rw [selectMonitor, if_neg h, if_pos heq.le, if_pos (by omega), heq]

/-- Beyond the threshold a deasserted poll does nothing. -/
theorem selectMonitor_of_gt {s : State} {sd : Bit} (h : sd ≠ s.cfg.selectAsserted)
    (hgt : s.cfg.sdIdleThreshold < s.transport.sdCnt) : selectMonitor sd s = s := by
  rw [selectMonitor, if_neg h, if_neg (by omega)]

/-- Settles O3: one clause per branch of the monitor. -/
theorem selectMonitorCountsAndFiresOnce : Obligations.SelectMonitorCountsAndFiresOnce :=
  fun s sd => ⟨selectMonitor sd s, rfl, selectMonitor_of_asserted, selectMonitor_of_lt,
    fun h heq => congrArg Host.Outcome.next (selectMonitor_of_eq h heq).symm, selectMonitor_of_gt⟩

/-! ## `POLL` and its parts (R130, R132) -/

/-- A `POLL` whose monitor leaves an active edge samples and drains. -/
theorem pollLines_of_findsEdge {s : State} {clk si sd : Bit}
    (h : FindsEdge (selectMonitor sd s) clk) :
    pollLines clk si sd s = drainBacklog (sampleBit si (recordClock clk (selectMonitor sd s))) :=
  if_pos ((isActiveEdge_iff _ clk).mpr h)

/-- A `POLL` whose monitor leaves no active edge records the clock and is over. -/
theorem pollLines_of_not_findsEdge {s : State} {clk si sd : Bit}
    (h : ¬FindsEdge (selectMonitor sd s) clk) :
    pollLines clk si sd s = recordClock clk (selectMonitor sd s) :=
  if_neg (mt (isActiveEdge_iff _ clk).mp h)

/-- Settles O6: edge detection reads the state the monitor left. -/
theorem pollRunsItsPartsInOrder : Obligations.PollRunsItsPartsInOrder :=
  fun s clk si sd => ⟨selectMonitor sd s, pollLines clk si sd s, rfl, rfl,
    fun h => congrArg Host.Outcome.next (pollLines_of_findsEdge h).symm,
    pollLines_of_not_findsEdge⟩

/-! ## `SAMPLE` and `DRAIN` (R133 to R136) -/

/-- With room in the backlog the bit is queued at its tail. -/
theorem sampleBit_of_room {s : State} (si : Bit)
    (h : s.transport.fifo.length < s.cfg.backlogDepth) :
    sampleBit si s = s.setTransport
      { s.transport with
        fifo := s.transport.fifo ++ [{ value := si, edge := s.cfg.activeEdge }] } :=
  if_neg h.not_ge

/-- On a full backlog the bit is lost: the bus reset, then one event (R135, R296). -/
theorem sampleBit_of_full {s : State} (si : Bit)
    (h : s.cfg.backlogDepth ≤ s.transport.fifo.length) :
    sampleBit si s = emitError .transportOverflow (resetBus s) :=
  (if_pos h).trans (raise_transportOverflow s)

/-- Settles O8: the overflow's bus reset empties the backlog, so nothing is left to drain. -/
theorem sampleQueuesTheBitOrOverflows : Obligations.SampleQueuesTheBitOrOverflows := by
  intro s si
  refine ⟨fun hroom => congrArg Host.Outcome.next (sampleBit_of_room si hroom), fun hfull => ?_⟩
  refine ⟨resetBus s, emitError .transportOverflow (resetBus s), rfl,
    congrArg Host.Outcome.next (sampleBit_of_full si hfull), ⟨⟨s.draws, rfl⟩, rfl⟩, ?_⟩
  exact congrArg Host.Outcome.next (drainBacklog_nil _ rfl)

/-- `SHIFT_EDGE` always completes (R162). -/
theorem exec_shiftEdge (v : Bit) (s : State) :
    exec (.shiftEdge v) s = .next (shiftEdge v s) := rfl

/-- A run of `SHIFT_EDGE` on queued bits, oldest first (R162). -/
theorem execAll_shiftEdge (bits : List SampledBit) (s : State) :
    execAll (bits.map fun b => .shiftEdge b.value) s =
      .next (bits.foldl (fun u b => shiftEdge b.value u) s) :=
  execAll_map (fun b : SampledBit => .shiftEdge b.value) (fun b => shiftEdge b.value)
    (fun b => exec_shiftEdge b.value) bits s

/-- Settles O9: the loop of `DRAIN` and the run of edges are the same fold over the backlog. -/
theorem drainShiftsEveryQueuedBit : Obligations.DrainShiftsEveryQueuedBit := by
  intro s
  refine ⟨drainBacklog s, rfl, drainBacklog_fifo s, ?_⟩
  rw [drainBacklog, drainLoop_eq_foldl s.transport.fifo s rfl]
  exact execAll_shiftEdge _ _

/-! ## Polls without an active edge (R140) -/

/-- Once the idle count is beyond the threshold, how far beyond does not matter (R131). -/
theorem NoBusReset.of_saturated {asserted : Bit} {threshold : Nat} :
    ∀ {levels : List Bit} {m n : Nat}, threshold < m → threshold < n →
      NoBusReset asserted threshold m levels → NoBusReset asserted threshold n levels
  | [], _, _, _, _, _ => trivial
  | sd :: rest, m, n, hm, hn, h => by
    unfold NoBusReset at h ⊢
    split
    case isTrue ha => rwa [if_pos ha] at h
    case isFalse ha =>
      rw [if_neg ha] at h
      exact ⟨hn.ne', of_saturated (Nat.lt_succ_of_lt hm) (Nat.lt_succ_of_lt hn) h.2⟩

/-- On levels that fire no bus reset the monitor only writes the idle count, and the rest of the
levels fires none from the count it wrote. -/
theorem selectMonitor_of_noBusReset {s : State} {sd : Bit} {rest : List Bit}
    (h : NoBusReset s.cfg.selectAsserted s.cfg.sdIdleThreshold s.transport.sdCnt (sd :: rest)) :
    ∃ n, selectMonitor sd s = writeSdCnt n s ∧
      NoBusReset s.cfg.selectAsserted s.cfg.sdIdleThreshold n rest := by
  unfold NoBusReset at h
  split at h
  case isTrue ha => exact ⟨0, selectMonitor_of_asserted ha, h⟩
  case isFalse ha =>
    obtain ⟨hne, hrest⟩ := h
    rcases Nat.lt_or_gt_of_ne hne with hlt | hgt
    · exact ⟨_, selectMonitor_of_lt ha hlt, hrest⟩
    · exact ⟨s.transport.sdCnt, selectMonitor_of_gt ha hgt,
        hrest.of_saturated (Nat.lt_succ_of_lt hgt) hgt⟩

/-- `POLL` always completes (R130). -/
theorem exec_poll (clk si sd : Bit) (s : State) :
    exec (.poll clk si sd) s = .next (pollLines clk si sd s) := rfl

/-- A run of `POLL`s is a fold. -/
theorem execAll_poll (polls : List (Bit × Bit × Bit)) (s : State) :
    execAll (polls.map fun p => .poll p.1 p.2.1 p.2.2) s =
      .next (polls.foldl (fun u p => pollLines p.1 p.2.1 p.2.2 u) s) :=
  execAll_map (fun p : Bit × Bit × Bit => .poll p.1 p.2.1 p.2.2)
    (fun p => pollLines p.1 p.2.1 p.2.2) (fun p => exec_poll p.1 p.2.1 p.2.2) polls s

/-- A run of polls without an active edge and without a bus reset writes `clk_prev` and `sd_cnt`. -/
theorem foldl_pollLines_of_no_edge : ∀ (polls : List (Bit × Bit × Bit)) (s : State),
    NoActiveEdge s.cfg.activeEdge s.transport.clkPrev (polls.map fun p => p.1) →
    NoBusReset s.cfg.selectAsserted s.cfg.sdIdleThreshold s.transport.sdCnt
      (polls.map fun p => p.2.2) →
    ∃ prev n, polls.foldl (fun u p => pollLines p.1 p.2.1 p.2.2 u) s =
      s.setTransport { s.transport with clkPrev := prev, sdCnt := n }
  | [], s, _, _ => ⟨s.transport.clkPrev, s.transport.sdCnt, rfl⟩
  | (clk, si, sd) :: polls, s, ⟨hclk, hedges⟩, hlevels => by
    obtain ⟨n, hmonitor, hrest⟩ := selectMonitor_of_noBusReset hlevels
    have hpoll : pollLines clk si sd s = recordClock clk (writeSdCnt n s) := by
      rw [← hmonitor]
      apply pollLines_of_not_findsEdge
      rw [hmonitor]
      exact hclk
    rw [List.foldl_cons, hpoll]
    exact foldl_pollLines_of_no_edge polls (recordClock clk (writeSdCnt n s)) hedges hrest

/-- Settles O7, by induction on the polls. -/
theorem pollsWithoutAnEdgeHoldEverything : Obligations.PollsWithoutAnEdgeHoldEverything := by
  intro s polls hedges hlevels
  obtain ⟨prev, n, hrun⟩ := foldl_pollLines_of_no_edge polls s hedges hlevels
  exact ⟨_, (execAll_poll polls s).trans (congrArg Host.Outcome.next hrun), rfl⟩

end Sys2Proof.Machine

/-! Proofs of the byte shifter's obligations: one bit in each direction, then a whole byte in and a
whole byte out (spec/41_byte_shifter.md R160 to R164). -/

namespace Sys2Proof.Machine

/-! ## One bit (R160 to R164) -/

/-- `RX_BIT` always completes (R160). -/
theorem exec_rxBit (v : Bit) (s : State) : exec (.rxBit v) s = .next (rxBit v s) := rfl

/-- `TX_BIT` always completes (R161). -/
theorem exec_txBit (s : State) : exec .txBit s = .next (txBit s) := rfl

/-- `BYTE_IN` always completes (R176). -/
theorem exec_byteIn (b : Byte) (s : State) : exec (.byteIn b) s = .next (byteIn b s) := rfl

/-- Settles O11: one clause per branch of `RX_BIT`. -/
theorem rxBitShiftsInAndHandsOver : Obligations.RxBitShiftsInAndHandsOver := by
  intro s v
  rw [← shiftIn_eq]
  refine ⟨fun hearly => ?_, fun heighth => ⟨rxBit v s, exec_rxBit v s, ?_⟩⟩
  · rw [exec_rxBit, rxBit_early s v hearly]
    rfl
  · rw [exec_byteIn, rxBit_eighth s v heighth]
    rfl

/-- Settles O12: the pending byte is loaded on the eighth bit, a zero is shifted in before it. -/
theorem txBitShiftsOutAndTakesTheNextByte : Obligations.TxBitShiftsOutAndTakesTheNextByte := by
  intro s
  refine ⟨txBit s, exec_txBit s, ?_⟩
  by_cases h : s.shifter.txCnt = 7
  · rw [txBit_eighth s h]
    exact ⟨rfl, fun _ => ⟨rfl, rfl, rfl⟩, absurd h⟩
  · rw [txBit_early s h]
    exact ⟨rfl, fun heighth => absurd heighth h,
      fun _ => ⟨shiftIn_eq _ false, Fin.val_add_one_of_lt (Fin.lt_last_iff_ne_last.mpr h), rfl⟩⟩

/-- Settles O13: an edge is, by definition, the inbound bit and then the outbound one. -/
theorem shiftEdgeIsInboundThenOutbound : Obligations.ShiftEdgeIsInboundThenOutbound :=
  fun s v => ⟨shiftEdge v s, exec_shiftEdge v s, rfl⟩

/-! ## One byte (R160, R161) -/

/-- A run of inbound bits is a fold. -/
theorem execAll_rxBit (bits : List Bit) (s : State) :
    execAll (bits.map .rxBit) s = .next (bits.foldl (fun u v => rxBit v u) s) :=
  execAll_map .rxBit rxBit exec_rxBit bits s

/-- Eight bits from a byte boundary: the byte handler on the byte they spell, which has replaced
whatever the register held (R160). -/
theorem rxBit_eight (s : State) (b : Byte) (h : s.shifter.rxCnt = 0) :
    (wireBits b).foldl (fun u v => rxBit v u) s =
      byteIn b (s.setShifter { s.shifter with rxSr := b, rxCnt := 0 }) := by
  have hseven := rxBit_seven s (b.getLsbD 7) (b.getLsbD 6) (b.getLsbD 5) (b.getLsbD 4)
    (b.getLsbD 3) (b.getLsbD 2) (b.getLsbD 1) h
  have hbyte := shiftIn_wireBits s.shifter.rxSr b
  simp only [wireBits, List.foldl_cons, List.foldl_nil] at hseven hbyte ⊢
  rw [hseven, rxBit_eighth _ _ rfl]
  simp only [State.setShifter_shifter, State.setShifter_setShifter, hbyte]

/-- Settles O14: eight shifts leave nothing of the register's old bits. -/
theorem eightBitsFormByteMostSignificantFirst :
    Obligations.EightBitsFormByteMostSignificantFirst := by
  intro s b h
  refine ⟨_, execAll_rxBit (wireBits b) s, ?_⟩
  rw [rxBit_eight s b h]
  exact exec_byteIn b _

/-- Eight outbound bits from a byte boundary: the pending byte is on the line and the filler is
pending (R161, R164). -/
theorem txBit_eight (s : State) (h : s.shifter.txCnt = 0) :
    txBit^[8] s = s.setShifter
      { s.shifter with txSr := s.shifter.txNext, txNext := Config.txFillByte } := by
  rw [Function.iterate_succ_apply', txBit_iterate s (by decide : 7 < 8) h, txBit_eighth _ rfl]
  simp only [State.setShifter_shifter, State.setShifter_setShifter, h]

/-- Settles O15: the line is the register's top bit, which `k` shifts take from bit `7 - k`. -/
theorem byteGoesOutMostSignificantFirst : Obligations.ByteGoesOutMostSignificantFirst := by
  intro s h
  refine ⟨fun k hk => ⟨txBit^[k] s, execAll_txBit k s, ?_⟩, ?_⟩
  · rw [txBit_iterate s hk h]
    exact msb_shiftIn_iterate _ hk
  · rw [execAll_txBit, txBit_eight s h]
    rfl

end Sys2Proof.Machine

/-! Proofs of the packet state machine's obligations: the byte handlers one by one, then the state
graph they and the steps follow (spec/42_packet_fsm.md R175 to R191). -/

namespace Sys2Proof.Machine

/-! ## Synchronisation and header (R177 to R184) -/

/-- `BYTE_IN` is the operation the table of R98 names (R176). -/
theorem exec_byteIn_of_handler {s : State} {b : Byte} {i : Instr}
    (h : byteHandler s.frame.ps s.frame.bidx b = i) : exec (.byteIn b) s = exec i s := by
  obtain ⟨t, hbyte, hhandler⟩ := byteInSelectsOneHandler s b
  rw [hbyte, ← hhandler, h]

/-- Settles O18: in `Sync1` the byte alone tells the two handlers apart. -/
theorem syncHandlersOnlyMoveThePacketState : Obligations.SyncHandlersOnlyMoveThePacketState := by
  intro s b
  refine ⟨rfl, rfl, rfl, fun hidle => ?_, fun hsync1 => ?_⟩
  · exact exec_byteIn_of_handler (i := .idleSync1) (by rw [hidle]; rfl)
  · by_cases hb : b = 0x33#8
    · rw [if_pos hb]
      exact exec_byteIn_of_handler (i := .sync1Sync2) (by rw [hsync1]; exact if_pos hb)
    · rw [if_neg hb]
      exact exec_byteIn_of_handler (i := .sync1Resync b) (by rw [hsync1]; exact if_neg hb)

/-- Settles O20: `Sync2` and `ReadCompression` name one handler each. -/
theorem commandAndCompressionBytesAreKeptAndSummed :
    Obligations.CommandAndCompressionBytesAreKeptAndSummed := by
  intro s b
  exact ⟨rfl, rfl, fun hsync2 => exec_byteIn_of_handler (by rw [hsync2]; rfl),
    fun hcomp => exec_byteIn_of_handler (by rw [hcomp]; rfl)⟩

/-- Settles O21: in `ReadLength` the sub-index names the handler. -/
theorem lengthBytesLeadToPayloadOrChecksum : Obligations.LengthBytesLeadToPayloadOrChecksum := by
  intro s b
  exact ⟨rfl, rfl, fun hlen hlo => exec_byteIn_of_handler (by rw [hlen, hlo]; rfl),
    fun hlen hhi => exec_byteIn_of_handler (by rw [hlen, hhi]; rfl)⟩

/-! ## Payload (R185) -/

/-- An inner payload byte leaves packet state and sub-index alone. -/
theorem rdPay_of_inner {s : State} (b : Byte) (h : s.frame.pidx + 1 ≠ s.frame.len.toNat) :
    rdPay b s = s.setFrame
      { s.frame with
        pbuf := s.frame.pbuf ++ [b], pidx := s.frame.pidx + 1, sum := addByte s.frame.sum b } := by
  rw [rdPay, if_neg h, if_neg h]

/-- The last payload byte leads to the first checksum byte. -/
theorem rdPay_of_last {s : State} (b : Byte) (h : s.frame.pidx + 1 = s.frame.len.toNat) :
    rdPay b s = s.setFrame
      { s.frame with
        pbuf := s.frame.pbuf ++ [b], pidx := s.frame.pidx + 1, sum := addByte s.frame.sum b,
        bidx := false, ps := .readChecksum } := by
  rw [rdPay, if_pos h, if_pos h]

/-- Settles O23: one clause per branch of `RDPAY`. -/
theorem payloadByteIsAppendedAndSummed : Obligations.PayloadByteIsAppendedAndSummed := by
  intro s b
  exact ⟨fun hinner => congrArg Host.Outcome.next (rdPay_of_inner b hinner),
    fun hlast => congrArg Host.Outcome.next (rdPay_of_last b hlast),
    fun hpay => exec_byteIn_of_handler (by rw [hpay]; rfl)⟩

/-! ## Checksum (R186, R189) -/

/-- A matching checksum is recorded as such, and the keep-alive byte is left pending. -/
theorem rdCksHi_of_match {s : State} {b : Byte}
    (h : setHighByte s.frame.cks b = s.frame.sum) :
    rdCksHi b s = replyThen s.cfg.keepAliveByte .readKeepAlive
      (s.setFrame { s.frame with cks := s.frame.sum, bidx := false, ckOk := true }) := by
  have hcompare : compareChecksum b s =
      s.setFrame { s.frame with cks := s.frame.sum, bidx := false, ckOk := true } := by
    rw [compareChecksum, h, beq_self_eq_true]
  rw [rdCksHi, hcompare]
  rfl

/-- A mismatch is recorded, sets the flag and emits one event; the keep-alive byte is left pending
all the same. -/
theorem rdCksHi_of_mismatch {s : State} {b : Byte}
    (h : setHighByte s.frame.cks b ≠ s.frame.sum) :
    rdCksHi b s = emitError .checksumMismatch
      (replyThen s.cfg.keepAliveByte .readKeepAlive (setChecksumError
        (s.setFrame
          { s.frame with cks := setHighByte s.frame.cks b, bidx := false, ckOk := false }))) := by
  have hcompare : compareChecksum b s = s.setFrame
      { s.frame with cks := setHighByte s.frame.cks b, bidx := false, ckOk := false } := by
    rw [compareChecksum, beq_eq_false_iff_ne.mpr h]
  rw [rdCksHi, hcompare]
  rfl

/-- Settles O24: the comparison decides the record, the flag and the event; the reply and the next
state are the same either way. -/
theorem checksumBytesAreComparedAndTheFrameGoesOn :
    Obligations.ChecksumBytesAreComparedAndTheFrameGoesOn := by
  intro s b
  refine ⟨rfl, fun hmatch => congrArg Host.Outcome.next (rdCksHi_of_match hmatch),
    fun hmismatch => ?_, fun hcks hlo => exec_byteIn_of_handler (by rw [hcks, hlo]; rfl),
    fun hcks hhi => exec_byteIn_of_handler (by rw [hcks, hhi]; rfl)⟩
  exact ⟨_, congrArg Host.Outcome.next (rdCksHi_of_mismatch hmismatch), ⟨s.draws, rfl⟩, rfl⟩

/-! ## Keep-alive (R191) -/

/-- Settles O25: `RDKA` is, by definition, dispatch and then the reply formed after it. -/
theorem keepAliveDispatchesThenRepliesStatus :
    Obligations.KeepAliveDispatchesThenRepliesStatus := by
  intro s b
  exact ⟨dispatchPacket (packetOf s) s, rfl, rfl,
    fun hka => exec_byteIn_of_handler (by rw [hka]; rfl)⟩

/-! ## The state graph (R175) -/

/-- A byte takes the edge of the table that its state, sub-index, value and length select. -/
theorem graphNode_byteIn (s : State) (b : Byte) :
    graphNode (byteIn b s).frame = graphStep s.frame b := by
  rw [byteIn_frame]
  unfold graphStep
  cases hps : s.frame.ps with
  | idle =>
    exact apply_ite (fun ps => graphNode { s.frame with ps }) (b = Config.sync1) .sync1 .idle
  | sync1 =>
    exact apply_ite (fun ps => graphNode { s.frame with ps }) (b = Config.sync2) .sync2 .idle
  | sync2 => rfl
  | readCompression => rfl
  | readLength =>
    cases s.frame.bidx with
    | false => simp [rdLenLo, graphNode, hps]
    | true =>
      exact apply_ite (fun ps => graphNode { (rdLenHi b s).frame with ps })
        (b ++ lowByte s.frame.len = 0#16) .readChecksum .readPayload
  | readPayload =>
    by_cases hlast : s.frame.pidx + 1 = s.frame.len.toNat
    · simp [rdPay_of_last b hlast, graphNode, hlast]
    · simp [rdPay_of_inner b hlast, graphNode, hps, hlast]
  | readChecksum =>
    cases s.frame.bidx with
    | false => simp [rdCksLo, graphNode, hps]
    | true => rfl
  | readKeepAlive => rfl

/-- An event that writes `busy` completes no byte (R91). -/
theorem NextEvent.not_completesByte_of_hostSetBusy {s : State} {busy : Bit}
    (h : NextEvent s (.hostSetBusy busy)) (b : Byte) : ¬CompletesByte s b := by
  rintro ⟨_, _, _, hpoll, -⟩
  cases h.unique hpoll

/-- An event that writes `busy` does not force `Idle` (R91). -/
theorem NextEvent.not_forcesIdle_of_hostSetBusy {s : State} {busy : Bit}
    (h : NextEvent s (.hostSetBusy busy)) : ¬ForcesIdle s := by
  rintro (hreset | ⟨_, _, _, hpoll, -⟩)
  · cases h.unique hreset
  · cases h.unique hpoll

/-- What a step from an empty backlog does to the in-flight packet state, and when: `Idle` is
forced, nothing changes, or a byte takes its edge of the state graph (R175). -/
theorem step_frame_cases {s t : State} (hf : s.transport.fifo = []) (h : step s = .next t) :
    (ForcesIdle s ∧ t.frame.ps = .idle) ∨
    ((∀ b, ¬CompletesByte s b) ∧ ¬ForcesIdle s ∧ t.frame = s.frame) ∨
    ∃ b, CompletesByte s b ∧ graphNode t.frame = graphStep s.frame b := by
  rcases step_effect hf h with ⟨hreset, rest, rfl⟩ | ⟨busy, hbusy, hframe, -⟩ |
    ⟨hbyte, hforce, hframe, -⟩ | ⟨hforce, hframe, -⟩ | ⟨b, hb, w, -, hw, -, -, -, z, rfl⟩
  · exact .inl ⟨.inl hreset, rfl⟩
  · exact .inr (.inl ⟨hbusy.not_completesByte_of_hostSetBusy,
      hbusy.not_forcesIdle_of_hostSetBusy, hframe⟩)
  · exact .inr (.inl ⟨hbyte, hforce, hframe⟩)
  · exact .inl ⟨hforce, by rw [hframe]; rfl⟩
  · refine .inr (.inr ⟨b, hb, ?_⟩)
    rw [State.setShifter_frame, graphNode_byteIn, hw]

/-- Settles O51: a byte, a step, and the three ways to force `Idle`. The three cases of a step
exclude each other, since an event that completes a byte forces nothing. -/
theorem stepFollowsTheStateGraph : Obligations.StepFollowsTheStateGraph := by
  refine ⟨fun s b => ⟨byteIn b s, exec_byteIn b s, graphNode_byteIn s b⟩, ?_, fun s si =>
    ⟨⟨resetAll s, rfl, rfl⟩, ⟨resetBus s, rfl, rfl⟩, fun hfull =>
      ⟨_, congrArg Host.Outcome.next (sampleBit_of_full si hfull), rfl⟩⟩⟩
  rintro s t ⟨hfifo, -⟩ hstep
  rcases step_frame_cases hfifo hstep with ⟨hforce, hidle⟩ | ⟨hbyte, hforce, hframe⟩ |
    ⟨b, hb, hgraph⟩
  · exact ⟨fun b hb => absurd hforce hb.not_forcesIdle, fun _ => hidle, fun _ h => absurd hforce h⟩
  · exact ⟨fun b hb => absurd hb (hbyte b), fun h => absurd h hforce, fun _ _ => hframe⟩
  · refine ⟨fun c hc => ?_, fun h => absurd h hb.not_forcesIdle, fun h => absurd hb (h b)⟩
    rw [hc.unique hb, hgraph]

end Sys2Proof.Machine

/-! Proofs of the packet commands' obligations: dispatch and its choice of a command, then the five
commands one by one (spec/43_packet_dispatch.md R210 to R215). -/

namespace Sys2Proof.Machine

/-- Emitting an error appends that one event to the trace, and no more (R275). -/
theorem plusError_emitError (kind : ErrorKind) (s : State) :
    PlusError kind s (emitError kind s) :=
  ⟨⟨s.draws, rfl⟩, rfl⟩

/-! ## Dispatch (R210) -/

/-- A packet whose checksum did not match has no further effect. -/
theorem dispatchPacket_of_mismatch {s : State} (h : s.frame.ckOk = false) :
    dispatchPacket (packetOf s) s = s :=
  if_neg (ne_true_of_eq_false h)

/-- The command a byte selects, as the chain of tests of R100. -/
theorem decodeCommand_eq_ite (c : Cfg) (b : Byte) :
    decodeCommand c b =
      if b = c.cmdInit then .cmdInit
      else if b = c.cmdPrint then .cmdPrint
      else if b = c.cmdData then .cmdData
      else if b = c.cmdStatus then .cmdStatus
      else .cmdUnknown b := by
  unfold decodeCommand classify
  split_ifs <;> rfl

/-- Settles O27: dispatch and the decoder of command bytes select by the same classification. -/
theorem dispatchRunsTheSelectedCommand : Obligations.DispatchRunsTheSelectedCommand := by
  intro s
  refine ⟨fun hmismatch => congrArg Host.Outcome.next (dispatchPacket_of_mismatch hmismatch),
    fun hmatch => ⟨dispatchPacket (packetOf s) s, rfl, ?_⟩⟩
  rw [← decodeCommand_eq_ite]
  exact exec_decodeCommand s hmatch

/-! ## `INITIALIZE`, `STATUS` and `UNKNOWN` (R211, R214, R215) -/

/-- Settles O28: the reset value of the flags is all four 0. -/
theorem initializeClearsFlagsAndImage : Obligations.InitializeClearsFlagsAndImage :=
  fun _ => rfl

/-- An unknown command sets the flag and emits one event: the error sets the same flag again. -/
theorem unknownCommand_eq (s : State) :
    unknownCommand s = emitError .unsupportedCommand (setUnsupported s) :=
  raise_unsupportedCommand (setUnsupported s)

/-- Settles O31: `STATUS` is the identity, and an unknown command is one error over the set flag. -/
theorem statusDoesNothingAndUnknownIsFlagged : Obligations.StatusDoesNothingAndUnknownIsFlagged :=
  fun s _ => ⟨rfl, _, congrArg Host.Outcome.next (unknownCommand_eq s), plusError_emitError _ _⟩

/-! ## `DATA` (R212) -/

/-- An uncompressed payload is appended as it is. -/
theorem dataCommand_of_plain {s : State} (h : s.frame.comp = 0x00#8) :
    dataCommand (packetOf s) s = appendData s.frame.pbuf s := by
  have hplain : (packetOf s).compressed = false := bne_eq_false_iff_eq.mpr h
  rw [dataCommand, if_neg (ne_true_of_eq_false hplain)]
  rfl

/-- A compressed payload is what the decompressor makes of it: appended, or a truncated run. -/
theorem dataCommand_of_compressed {s : State} (h : s.frame.comp ≠ 0x00#8) :
    dataCommand (packetOf s) s =
      (decompressBytes s.frame.pbuf).elim (raise .truncatedRun s) (appendData · s) := by
  have hcompressed : (packetOf s).compressed = true := bne_iff_ne.mpr h
  have hpayload : (packetOf s).payload = s.frame.pbuf := rfl
  rw [dataCommand, if_pos hcompressed, hpayload]
  cases decompressBytes s.frame.pbuf <;> rfl

/-- Settles O29: one clause per branch of `DATA`. -/
theorem dataAppendsThePayloadOrReportsTruncation :
    Obligations.DataAppendsThePayloadOrReportsTruncation := by
  intro s
  refine ⟨dataCommand (packetOf s) s, rfl, fun hplain => ?_, fun hcompressed data hdata => ?_,
    fun hcompressed hnone => ?_⟩
  · rw [dataCommand_of_plain hplain]
    rfl
  · rw [dataCommand_of_compressed hcompressed, hdata]
    rfl
  · rw [dataCommand_of_compressed hcompressed, hnone]
    exact plusError_emitError .truncatedRun (setPacketError s)

/-! ## `PRINT` (R213, R253, R254) -/

/-- A payload of fewer than four bytes holds no parameters (R108, R295). -/
theorem parsePrintParameters_of_short {payload : List Byte} (h : payload.length < 4) :
    parsePrintParameters payload = none := by
  match payload, h with
  | [], _ => rfl
  | [_], _ => rfl
  | [_, _], _ => rfl
  | [_, _, _], _ => rfl
  | _ :: _ :: _ :: _ :: _, h => exact absurd h (by simp)

/-- Without parameters `PRINT` only reports the payload (R295). -/
theorem printCommand_of_parse_none {pkt : Packet} (s : State)
    (h : parsePrintParameters pkt.payload = none) :
    printCommand pkt s = emitError .malformedPrintParameters (setPacketError s) := by
  rw [printCommand, h]
  exact raise_malformedPrintParameters s

/-- With parameters `PRINT` emits the finished image and clears the buffer (R213, R254). -/
theorem printCommand_of_parse_some {pkt : Packet} {params : PrintParameters} (s : State)
    (h : parsePrintParameters pkt.payload = some params) :
    printCommand pkt s = emitImage (finishedImage s.cfg params s.rows) params (s.setRows []) := by
  rw [printCommand, h]
  rfl

/-- The margin before is the high digit of its byte (R109). -/
theorem toNat_highNibble (b : Byte) : (b.extractLsb' 4 4).toNat = b.toNat / 16 := by
  have := b.isLt
  rw [BitVec.extractLsb'_toNat, Nat.shiftRight_eq_div_pow]
  omega

/-- The margin after is the low digit of its byte (R109). -/
theorem toNat_lowNibble (b : Byte) : (b.extractLsb' 0 4).toNat = b.toNat % 16 :=
  BitVec.extractLsb'_toNat 0 4 b

/-- Settles O30: the payload's length decides whether it holds parameters; the image is the finished
buffer under them. -/
theorem printEmitsTheFinishedImageOrReportsShortPayload :
    Obligations.PrintEmitsTheFinishedImageOrReportsShortPayload := by
  intro s
  refine ⟨fun hshort => ?_, fun sheets margins palette exposure more hpayload => ?_⟩
  · have hnone : parsePrintParameters (packetOf s).payload = none :=
      parsePrintParameters_of_short hshort
    exact ⟨_, congrArg Host.Outcome.next (printCommand_of_parse_none s hnone),
      plusError_emitError .malformedPrintParameters (setPacketError s)⟩
  · have hsome : parsePrintParameters (packetOf s).payload = some
        { sheets, marginBefore := margins.extractLsb' 4 4,
          marginAfter := margins.extractLsb' 0 4, palette, exposure } :=
      congrArg parsePrintParameters hpayload
    refine ⟨_, congrArg Host.Outcome.next (printCommand_of_parse_some s hsome), rfl, rfl,
      finishedImage_height _ _ _, rfl, rfl, fun hempty => ?_, fun hrows => ?_⟩
    · rw [hempty]
      rfl
    · rw [← toNat_highNibble, ← toNat_lowNibble]
      exact finishedRows_of_ne_nil s.cfg _ hrows

end Sys2Proof.Machine

/-! Proof of the decompressor's obligation on control bytes: the run a control byte takes, then one
turn of the decompressor for each outcome of that run (spec/44_rle_decompressor.md R230, R232,
R233). -/

namespace Sys2Proof.Machine

/-! ## The run of a control byte (R103, R104) -/

/-- The selector of a control byte is its bit 7 (R103). -/
theorem msb_eq_getLsbD_seven (c : Byte) : c.msb = c.getLsbD 7 :=
  BitVec.msb_eq_getLsbD_last c

/-- A run is one byte longer than the low seven bits of its control byte (R104). -/
theorem runLength_runField (c : Byte) : runLength (runField c) = c.toNat % 128 + 1 :=
  congrArg (· + 1) (BitVec.extractLsb'_toNat 0 7 c)

/-- With bit 7 clear the low seven bits are the whole control byte. -/
theorem runLength_runField_of_literal {c : Byte} (h : c.getLsbD 7 = false) :
    runLength (runField c) = c.toNat + 1 := by
  have hmsb : c.msb = false := (msb_eq_getLsbD_seven c).trans h
  have hlt : 2 * c.toNat < 2 ^ 8 := BitVec.msb_eq_false_iff_two_mul_lt.mp hmsb
  rw [runLength_runField, Nat.mod_eq_of_lt (by omega)]

/-- A repeat run takes the next byte (R232). -/
theorem rleTake_repeat {c : Byte} (h : c.getLsbD 7 = true) (v : Byte) (rest : List Byte) :
    rleTake c (v :: rest) = some (rest, List.replicate (c.toNat % 128 + 1) v) := by
  rw [← runLength_runField]
  exact if_pos ((msb_eq_getLsbD_seven c).trans h)

/-- A repeat run with no byte after its control byte is truncated (R232). -/
theorem rleTake_repeat_nil {c : Byte} (h : c.getLsbD 7 = true) : rleTake c [] = none :=
  if_pos ((msb_eq_getLsbD_seven c).trans h)

/-- What a literal run takes: the bytes its control byte counts, if they are there (R233). -/
theorem rleTake_literal {c : Byte} (h : c.getLsbD 7 = false) (rest : List Byte) :
    rleTake c rest =
      if rest.length < c.toNat + 1 then none
      else some (rest.drop (c.toNat + 1), rest.take (c.toNat + 1)) := by
  rw [← runLength_runField_of_literal h]
  exact if_neg (ne_true_of_eq_false ((msb_eq_getLsbD_seven c).trans h))

/-! ## One turn of the decompressor (R230) -/

/-- A truncated run fails the decompression. -/
theorem decompressBytes_cons_of_truncated {c : Byte} {rest : List Byte}
    (h : rleTake c rest = none) : decompressBytes (c :: rest) = none := by
  rw [decompressBytes_cons, h]

/-- A complete run stands before the decompression of what it leaves. -/
theorem decompressBytes_cons_of_run {c : Byte} {rest more out : List Byte}
    (h : rleTake c rest = some (more, out)) :
    decompressBytes (c :: rest) = (decompressBytes more).map (out ++ ·) := by
  rw [decompressBytes_cons, h]

/-- Settles O32: each clause is the run its control byte takes, followed by one turn of the
decompressor. -/
theorem decompressFollowsTheControlBytes : Obligations.DecompressFollowsTheControlBytes := by
  refine ⟨decompressBytes_nil, fun c v rest hrepeat => ?_, fun c hrepeat => ?_,
    fun c rest hliteral hshort => ?_, fun c rest hliteral henough => ?_⟩
  · exact decompressBytes_cons_of_run (rleTake_repeat hrepeat v rest)
  · exact decompressBytes_cons_of_truncated (rleTake_repeat_nil hrepeat)
  · exact decompressBytes_cons_of_truncated ((rleTake_literal hliteral rest).trans (if_pos hshort))
  · exact decompressBytes_cons_of_run
      ((rleTake_literal hliteral rest).trans (if_neg (Nat.not_lt.mpr henough)))

end Sys2Proof.Machine

/-! Proof of the image assembler's obligation on `APPEND`: each of its two tests fails into one error
event, and what passes both is appended (spec/45_image_assembler.md R248 to R251). -/

namespace Sys2Proof.Machine

/-- A payload of partial tile rows is reported as malformed (R248, R294). -/
theorem appendData_of_partial (s : State) {data : List Byte} (hsize : data.length % 320 ≠ 0) :
    appendData data s = emitError .malformedTileData (setPacketError s) := by
  rcases appendData_cases s data with ⟨-, h⟩ | ⟨h, -⟩ | ⟨h, -⟩
  · exact h
  · exact absurd h hsize
  · exact absurd h hsize

/-- Whole tile rows that would pass the maximum height are reported as an overflow (R250, R292). -/
theorem appendData_of_tooHigh {s : State} {data : List Byte} (hsize : data.length % 320 = 0)
    (hhigh : s.cfg.maxHeight < s.rows.length + 8 * (data.length / 320)) :
    appendData data s = emitError .payloadOverflow (setPacketError s) := by
  rcases appendData_cases s data with ⟨h, -⟩ | ⟨-, -, h⟩ | ⟨-, h, -⟩
  · exact absurd hsize h
  · exact h
  · exact absurd hhigh (Nat.not_lt.mpr h)

/-- Settles O36: each clause is the way `APPEND` ends under its tests; the new rows are the decoded
tile rows. -/
theorem appendTestsThenAppendsWholeTileRows : Obligations.AppendTestsThenAppendsWholeTileRows := by
  intro s data
  refine ⟨appendData data s, rfl, fun hsize => ?_, fun hsize hhigh => ?_, fun hsize hfits => ?_⟩
  · rw [appendData_of_partial s hsize]
    exact plusError_emitError .malformedTileData (setPacketError s)
  · rw [appendData_of_tooHigh hsize hhigh]
    exact plusError_emitError .payloadOverflow (setPacketError s)
  · exact ⟨decodeTileRows data (data.length / 320), appendData_of_fits s data hsize hfits,
      decodeTileRows_length data _, fun _ hr => decodeTileRows_width hr⟩

end Sys2Proof.Machine

/-! Proofs of the session controller's obligations: the host's write of `busy`, and the two emits
(spec/46_session_controller.md R273 to R276). -/

namespace Sys2Proof.Machine

/-! ## The flag `busy` (R273) -/

/-- `HOST_SET_BUSY` completes in every state with the write of the flag. -/
theorem exec_hostSetBusy (b : Bit) (s : State) :
    exec (.hostSetBusy b) s = .next (writeBusy b s) := rfl

/-- A run after `HOST_SET_BUSY` is that run on the state with the flag written. -/
theorem execAll_hostSetBusy_cons (b : Bit) (rest : List Instr) (s : State) :
    execAll (.hostSetBusy b :: rest) s = execAll rest (writeBusy b s) :=
  execAll_append [.hostSetBusy b] rest (exec_hostSetBusy b s)

/-- `INITIALIZE` leaves every flag at its reset value (R211). -/
@[simp] theorem initCommand_flags (s : State) : (initCommand s).flags = Flags.reset := rfl

/-- Settles O2: the write touches one flag, and `INITIALIZE` and `RESET` clear the flags of whatever
state it left. -/
theorem hostSetBusyWritesOnlyBusy : Obligations.HostSetBusyWritesOnlyBusy := by
  intro s b
  refine ⟨exec_hostSetBusy b s, ⟨initCommand (writeBusy b s), ?_, ?_⟩,
    resetAll (writeBusy b s), ?_, ?_⟩
  · exact execAll_hostSetBusy_cons b [.cmdInit] s
  · rw [initCommand_flags, Flags.reset]
  · exact execAll_hostSetBusy_cons b [.reset] s
  · rw [resetAll_flags, Flags.reset]

/-! ## The emits (R274 to R276) -/

/-- `EMIT_IMAGE_READY` completes in every state with the image appended to the trace. -/
theorem exec_emitImageReady (image : FinishedImage) (params : PrintParameters) (s : State) :
    exec (.emitImageReady image params) s = .next (emitImage image params s) := rfl

/-- `EMIT_PROTOCOL_ERROR` completes in every state with the error appended to the trace. -/
theorem exec_emitProtocolError (kind : ErrorKind) (s : State) :
    exec (.emitProtocolError kind) s = .next (emitError kind s) := rfl

/-- Settles O40: the image's event is the whole effect of its emit; the error's is so up to the
context it draws. -/
theorem emitAppendsOneEvent : Obligations.EmitAppendsOneEvent :=
  fun s image params kind => ⟨exec_emitImageReady image params s,
    emitError kind s, exec_emitProtocolError kind s, plusError_emitError kind s⟩

end Sys2Proof.Machine

/-! Proofs of the obligations on errors: the bus reset, a frame with a wrong checksum, and what clears
an error flag (spec/60_exceptions.md R288 to R302). -/

namespace Sys2Proof.Machine

/-! ## The bus reset (R290) -/

/-- Settles O4: the operation's three writes are the reset values of the obligation. -/
theorem busResetClearsInFlightState : Obligations.BusResetClearsInFlightState :=
  fun _ => rfl

/-! ## Error flags (R302) -/

/-- No error flag that `f` holds is cleared in `g`. -/
def Flags.ErrorsKept (f g : Flags) : Prop :=
  (f.checksumError = true → g.checksumError = true) ∧
    (f.unsupported = true → g.unsupported = true) ∧ (f.packetError = true → g.packetError = true)

theorem Flags.ErrorsKept.refl (f : Flags) : f.ErrorsKept f := ⟨id, id, id⟩

/-- Flags that are kept are not cleared. -/
theorem Flags.ErrorsKept.not_cleared {f g : Flags} (h : f.ErrorsKept g) :
    ¬(f.checksumError = true ∧ g.checksumError = false ∨
      f.unsupported = true ∧ g.unsupported = false ∨
      f.packetError = true ∧ g.packetError = false) := by
  obtain ⟨hchecksum, hunsupported, hpacket⟩ := h
  rintro (⟨hset, hclear⟩ | ⟨hset, hclear⟩ | ⟨hset, hclear⟩)
  · exact ne_true_of_eq_false hclear (hchecksum hset)
  · exact ne_true_of_eq_false hclear (hunsupported hset)
  · exact ne_true_of_eq_false hclear (hpacket hset)

/-- Only the configured byte is classified as `INITIALIZE` (R100). -/
theorem eq_cmdInit_of_classify {c : Cfg} {b : Byte} (h : classify c b = .init) : b = c.cmdInit := by
  unfold classify at h
  split_ifs at h with hinit
  exact hinit

/-- Dispatch clears no error flag but for a checksum-correct `INITIALIZE` (R302). -/
theorem dispatchPacket_errorsKept (pkt : Packet) (s : State) :
    (pkt.checksumOk = true ∧ pkt.command = .init) ∨
      s.flags.ErrorsKept (dispatchPacket pkt s).flags := by
  rcases dispatchPacket_cases s pkt with h | ⟨hok, hinit, -⟩ | ⟨-, -, _, -, -, h⟩ |
    ⟨-, -, _, _, h⟩ | ⟨_, -, h | h⟩
  · exact .inr (by rw [h]; exact .refl _)
  · exact .inl ⟨hok, hinit⟩
  · exact .inr (by rw [h]; exact .refl _)
  · exact .inr (by rw [h]; exact .refl _)
  · exact .inr (by rw [h]; exact ⟨id, id, fun _ => rfl⟩)
  · exact .inr (by rw [h]; exact ⟨id, fun _ => rfl, id⟩)

/-- A byte clears no error flag but for the keep-alive byte of a checksum-correct `INITIALIZE`
(R302). -/
theorem byteIn_errorsKept (b : Byte) (s : State) :
    (s.frame.ps = .readKeepAlive ∧ s.frame.ckOk = true ∧ s.frame.cmd = s.cfg.cmdInit) ∨
      s.flags.ErrorsKept (byteIn b s).flags := by
  rcases byteIn_effect s b with ⟨-, -, h⟩ | ⟨-, -, h⟩ | ⟨hps, -, -, h⟩ <;> rw [h]
  · exact .inr (.refl _)
  · exact .inr ⟨fun _ => rfl, id, id⟩
  · rcases dispatchPacket_errorsKept (packetOf s) s with ⟨hok, hinit⟩ | hkept
    · exact .inl ⟨hps, hok, eq_cmdInit_of_classify hinit⟩
    · exact .inr hkept

/-- The keep-alive byte ends the frame (R191). -/
theorem byteIn_ps_of_keepAlive (b : Byte) {s : State} (h : s.frame.ps = .readKeepAlive) :
    (byteIn b s).frame.ps = .idle := by
  rw [byteIn_frame, h]

/-- A step from an empty backlog clears no error flag but for a `RESET` and the keep-alive byte of a
checksum-correct `INITIALIZE` (R302). -/
theorem step_errorsKept {s t : State} (hf : s.transport.fifo = []) (h : step s = .next t) :
    NextEvent s .reset ∨
      ((∃ b, CompletesByte s b) ∧ s.frame.ps = .readKeepAlive ∧ t.frame.ps = .idle ∧
        s.frame.ckOk = true ∧ s.frame.cmd = s.cfg.cmdInit) ∨
      s.flags.ErrorsKept t.flags := by
  rcases step_effect hf h with ⟨hreset, -⟩ | ⟨busy, -, -, -, -, hflags⟩ |
    ⟨-, -, -, hflags, -⟩ | ⟨-, -, hflags, -⟩ | ⟨b, hb, w, hcfg, hframe, hflags, -, -, z, rfl⟩
  · exact .inl hreset
  · exact .inr (.inr (by rw [hflags]; exact .refl s.flags))
  · exact .inr (.inr (by rw [hflags]; exact .refl _))
  · exact .inr (.inr (by rw [hflags]; exact .refl _))
  · rw [← hcfg, ← hframe, ← hflags]
    rcases byteIn_errorsKept b w with ⟨hps, hok, hcmd⟩ | hkept
    · exact .inr (.inl ⟨⟨b, hb⟩, hps, byteIn_ps_of_keepAlive b hps, hok, hcmd⟩)
    · exact .inr (.inr hkept)

/-- Settles O54: a step that clears an error flag does not keep them all. -/
theorem errorFlagsAreSticky : Obligations.ErrorFlagsAreSticky := by
  rintro s t ⟨hfifo, -⟩ hstep hcleared
  rcases step_errorsKept hfifo hstep with hreset | hinit | hkept
  · exact .inl hreset
  · exact .inr hinit
  · exact absurd hcleared hkept.not_cleared

/-! ## A frame with a wrong checksum (R288, R189, R191) -/

/-- Header and payload of a frame, from `Idle`: what was read stands in the registers, and the checksum
is awaited (R94, R177 to R185). -/
theorem byteIn_header_payload {s : State} (cmd comp : Byte) {payload : List Byte}
    (hidle : s.frame.ps = .idle) (hlen : payload.length < 65536) :
    ([Config.sync1, Config.sync2, cmd, comp, lowByte (BitVec.ofNat 16 payload.length),
        highByte (BitVec.ofNat 16 payload.length)] ++ payload).foldl (fun u b => byteIn b u) s =
      s.setFrame
        { s.frame with
          ps := .readChecksum, bidx := false, pidx := payload.length, cmd, comp
          len := BitVec.ofNat 16 payload.length, sum := frameSum cmd comp payload
          pbuf := payload } := by
  have hnat : (BitVec.ofNat 16 payload.length).toNat = payload.length :=
    (BitVec.toNat_ofNat _ _).trans (Nat.mod_eq_of_lt hlen)
  rw [List.foldl_append, byteIn_header s cmd comp _ _ hidle, highByte_append_lowByte]
  by_cases hnil : payload = []
  · subst hnil
    simp [frameSum]
  · have hne : BitVec.ofNat 16 payload.length ≠ 0#16 := fun h =>
      hnil (List.eq_nil_of_length_eq_zero (by rw [← hnat, h]; rfl))
    rw [if_neg hne, byteIn_payload payload _ rfl hnil (by simp [hnat]) rfl]
    simp [frameSum, byteSum, BitVec.add_assoc]

/-- A frame, from `Idle`: the comparison of its checksum with the sum stands in the registers, a
mismatch is recorded and the keep-alive byte is left pending (R94, R189). -/
theorem byteIn_frameBytes {s : State} (cmd comp : Byte) {payload : List Byte} (cks : Half)
    (hidle : s.frame.ps = .idle) (hlen : payload.length < 65536) :
    (frameBytes cmd comp payload cks).foldl (fun u b => byteIn b u) s =
      replyThen s.cfg.keepAliveByte .readKeepAlive (recordMismatch (s.setFrame
        { ps := .readChecksum, bidx := false, pidx := payload.length, cmd, comp
          len := BitVec.ofNat 16 payload.length, sum := frameSum cmd comp payload, cks
          ckOk := cks == frameSum cmd comp payload, pbuf := payload })) := by
  rw [frameBytes, List.foldl_append, byteIn_header_payload cmd comp hidle hlen,
    byteIn_checksum _ _ _ rfl rfl, highByte_append_lowByte]
  rfl

/-- The keep-alive byte after a mismatch dispatches nothing (R191, R210). -/
theorem byteIn_keepAlive_of_mismatch (b : Byte) {s : State} (hps : s.frame.ps = .readKeepAlive)
    (hbad : s.frame.ckOk = false) : byteIn b s = replyThen (statusByte s) .idle s := by
  rw [byteIn_keepAlive s b hps, rdKa, dispatchPacket_of_mismatch hbad]

/-- The state after a frame whose checksum does not match, but for the error's event (R288, R189). -/
def afterMismatch (s : State) (cmd comp : Byte) (payload : List Byte) (cks : Half) : State :=
  { s with
    shifter := { s.shifter with txNext := s.cfg.keepAliveByte }
    flags := { s.flags with checksumError := true }
    frame :=
      { ps := .readKeepAlive, bidx := false, pidx := payload.length, cmd, comp,
        len := BitVec.ofNat 16 payload.length, sum := frameSum cmd comp payload,
        cks, ckOk := false, pbuf := payload } }

/-- A frame with a wrong checksum, from `Idle`, is recorded with one event (R288, R189). -/
theorem byteIn_frameBytes_of_mismatch {s : State} (cmd comp : Byte) {payload : List Byte}
    {cks : Half} (hidle : s.frame.ps = .idle) (hlen : payload.length < 65536)
    (hbad : cks ≠ frameSum cmd comp payload) :
    (frameBytes cmd comp payload cks).foldl (fun u b => byteIn b u) s =
      emitError .checksumMismatch (afterMismatch s cmd comp payload cks) := by
  rw [byteIn_frameBytes cmd comp cks hidle hlen, beq_eq_false_iff_ne.mpr hbad]
  rfl

/-- A set checksum-error flag stands at its position in the status byte (R106). -/
theorem statusByte_checksumError {s : State} (h : s.flags.checksumError = true) :
    (statusByte s).getLsbD s.cfg.posChecksumError.val = true := by
  simp [getLsbD_statusByte, h]

/-- Settles O60: the frame leaves its mismatch recorded, which keeps the keep-alive byte from
dispatching and stands in the status byte. -/
theorem wrongChecksumIsRecordedAndAnswered : Obligations.WrongChecksumIsRecordedAndAnswered := by
  intro s cmd comp ka payload cks hidle hlen hbad
  have hread := byteIn_frameBytes_of_mismatch cmd comp hidle hlen hbad
  have hlast := byteIn_keepAlive_of_mismatch ka
    (s := emitError .checksumMismatch (afterMismatch s cmd comp payload cks)) rfl rfl
  refine ⟨_, _, ?_, plusError_emitError .checksumMismatch (afterMismatch s cmd comp payload cks),
    ?_, rfl, statusByte_checksumError rfl⟩
  · rw [execAll_byteIn, hread]
  · rw [execAll_byteIn, List.foldl_append, hread, List.foldl_cons, List.foldl_nil, hlast]
    rfl

end Sys2Proof.Machine

/-! Proof of the obligation on `RESET`: the values it leaves, and the first poll after it
(spec/70_reset_and_hazards.md R320). -/

namespace Sys2Proof.Machine

/-- `RESET` completes in every state (R320). -/
theorem exec_reset (s : State) : exec .reset s = .next (resetAll s) := rfl

/-- `RESET` leaves `SerialOut` low: the top bit of the fill byte (R27, R46). -/
theorem resetAll_so (s : State) : (resetAll s).so = false := BitVec.msb_zero

/-- Where no clock level is recorded no poll finds an edge (R132). -/
theorem not_findsEdge_of_clkPrev_none {s : State} (h : s.transport.clkPrev = none) (clk : Bit) :
    ¬FindsEdge s clk := by
  rintro ⟨hprev, -⟩
  rw [h] at hprev
  cases hprev

/-- A first poll, with Select asserted, restarts the idle count and records the clock (R131, R132). -/
theorem pollLines_of_clkPrev_none {s : State} (h : s.transport.clkPrev = none) (clk si : Bit) :
    pollLines clk si s.cfg.selectAsserted s = recordClock clk (writeSdCnt 0 s) := by
  have hmonitor : selectMonitor s.cfg.selectAsserted s = writeSdCnt 0 s :=
    selectMonitor_of_asserted rfl
  rw [pollLines_of_not_findsEdge, hmonitor]
  rw [hmonitor]
  exact not_findsEdge_of_clkPrev_none h clk

/-- The first poll after `RESET`, with Select asserted, changes only `clk_prev`: the idle count is 0
already (R320, R322). -/
theorem pollLines_resetAll (s : State) (clk si : Bit) :
    pollLines clk si s.cfg.selectAsserted (resetAll s) =
      { resetAll s with transport := { (resetAll s).transport with clkPrev := some clk } } :=
  pollLines_of_clkPrev_none (s := resetAll s) rfl clk si

/-- Settles O1: the reset values are those of the obligation's table, and the first poll after them
finds no recorded clock level and nothing to restart. -/
theorem resetGivesEveryFieldItsResetValue : Obligations.ResetGivesEveryFieldItsResetValue :=
  fun s => ⟨resetAll s, exec_reset s, resetAll_cfg s, resetAll_transport s, resetAll_shifter s,
    resetAll_frame s, resetAll_flags s, resetAll_rows s, resetAll_out s, resetAll_so s,
    fun si => (exec_poll true si _ _).trans
      (congrArg Host.Outcome.next (pollLines_resetAll s true si))⟩

end Sys2Proof.Machine

/-! Proofs of the encoding obligations on words: what a word written out decodes to, decode after
encode, and encode after decode (spec/30_encoding.md R91, R98, R100, R103). -/

namespace Sys2Proof.Machine

/-- Settles O43: each word runs through its table. -/
theorem writtenOutWordsDecode : Obligations.WrittenOutWordsDecode :=
  ⟨rfl, rfl, rfl, rfl, rfl, rfl, rfl, rfl⟩

/-! ## Decode after encode -/

/-- The word of a `POLL` decodes to its three levels (R91). -/
theorem decodeEvent_pollWord (clk si sd : Bit) :
    decodeEvent .poll [pollWord clk si sd] = .instr (.poll clk si sd) := by
  revert clk si sd
  decide

/-- The word of `HOST_SET_BUSY` decodes to its bit (R91). -/
theorem decodeEvent_busyWord (b : Bit) :
    decodeEvent .hostSetBusy [busyWord b] = .instr (.hostSetBusy b) := by
  revert b
  decide

/-- A legal configuration keeps the four command bytes apart (R7). -/
theorem commands_distinct_of_wf {c : Cfg} (h : c.wf = true) :
    c.cmdInit ≠ c.cmdPrint ∧ c.cmdInit ≠ c.cmdData ∧ c.cmdInit ≠ c.cmdStatus ∧
      c.cmdPrint ≠ c.cmdData ∧ c.cmdPrint ≠ c.cmdStatus ∧ c.cmdData ≠ c.cmdStatus := by
  simp only [Cfg.wf, Cfg.commandsDistinct, Bool.and_eq_true, bne_iff_ne] at h
  obtain ⟨⟨⟨⟨⟨⟨⟨⟨hip, hid⟩, his⟩, hpd⟩, hps⟩, hds⟩, -⟩, -⟩, -⟩ := h
  exact ⟨hip, hid, his, hpd, hps, hds⟩

/-- A configured command byte is classified as its command, since the earlier tests of R100 fail. -/
theorem decodeCommand_configured {c : Cfg} (h : c.wf = true) :
    decodeCommand c c.cmdInit = .cmdInit ∧ decodeCommand c c.cmdPrint = .cmdPrint ∧
      decodeCommand c c.cmdData = .cmdData ∧ decodeCommand c c.cmdStatus = .cmdStatus := by
  obtain ⟨hip, hid, his, hpd, hps, hds⟩ := commands_distinct_of_wf h
  simp [decodeCommand_eq_ite, hip.symm, hid.symm, his.symm, hpd.symm, hps.symm, hds.symm]

/-- A byte that is none of the configured ones is an unknown command (R100). -/
theorem decodeCommand_of_isUnknown {c : Cfg} {b : Byte} (h : c.isUnknown b = true) :
    decodeCommand c b = .cmdUnknown b := by
  simp only [Cfg.isUnknown, Bool.and_eq_true, bne_iff_ne] at h
  obtain ⟨⟨⟨hi, hp⟩, hd⟩, hs⟩ := h
  rw [decodeCommand_eq_ite, if_neg hi, if_neg hp, if_neg hd, if_neg hs]

/-- A control byte is bit 7 above the low seven bits (R103). -/
theorem decodeControl_append (b : Bit) (n : BitVec 7) :
    decodeControl (BitVec.ofBool b ++ n : Byte) =
      if b then .rleRepeat n else .rleLiteral n := by
  revert b n
  decide

/-- The word of a well-formed operation decodes to it at its place. -/
theorem decode_of_encode {c : Cfg} {i : Instr} {place : Place} {bytes : List Byte}
    (hc : c.wf = true) (hi : i.wellFormed c = true) (h : encode c i = some (place, bytes)) :
    decode c place bytes = .instr i := by
  obtain ⟨hinit, hprint, hdata, hstatus⟩ := decodeCommand_configured hc
  cases i with
  | poll clk si sd => cases h; exact decodeEvent_pollWord clk si sd
  | hostSetBusy b => cases h; exact decodeEvent_busyWord b
  | idleSkip b =>
    cases h
    exact congrArg (Decoded.instr ∘ ByteRow.instr) (if_neg (bne_iff_ne.mp hi))
  | sync1Resync b =>
    cases h
    exact congrArg (Decoded.instr ∘ ByteRow.instr) (if_neg (bne_iff_ne.mp hi))
  | cmdInit => cases h; exact congrArg Decoded.instr hinit
  | cmdPrint => cases h; exact congrArg Decoded.instr hprint
  | cmdData => cases h; exact congrArg Decoded.instr hdata
  | cmdStatus => cases h; exact congrArg Decoded.instr hstatus
  | cmdUnknown b => cases h; exact congrArg Decoded.instr (decodeCommand_of_isUnknown hi)
  | rleRepeat n => cases h; exact congrArg Decoded.instr (decodeControl_append true n)
  | rleLiteral n => cases h; exact congrArg Decoded.instr (decodeControl_append false n)
  | _ => cases h <;> rfl

/-- Exactly the internal sub-operations have no word. -/
theorem isInternal_iff_encode_eq_none (c : Cfg) (i : Instr) :
    i.isInternal = true ↔ encode c i = none := by
  cases i <;> simp [Instr.isInternal, encode]

/-- Settles O44: level by level, the decoder undoes the encoder. -/
theorem decodeUndoesEncode : Obligations.DecodeUndoesEncode :=
  fun c i hc hi => ⟨isInternal_iff_encode_eq_none c i, fun _ _ h => decode_of_encode hc hi h⟩

/-! ## Encode after decode -/

/-- A byte with no bit above the third is the word of its three levels (R91). -/
theorem pollWord_bits {w : Byte} (h : w.toNat < 8) :
    pollWord (w.getLsbD 2) (w.getLsbD 1) (w.getLsbD 0) = w := by
  revert w
  decide

/-- A byte with no bit above the first is the word of its bit (R91). -/
theorem busyWord_bit {w : Byte} (h : w.toNat < 2) : busyWord (w.getLsbD 0) = w := by
  revert w
  decide

/-- What an event decodes to has the event's word (R91). -/
theorem encode_of_decodeEvent (c : Cfg) {kind : EventKind} {bytes : List Byte} {i : Instr}
    (h : decodeEvent kind bytes = .instr i) : encode c i = some (.event kind, bytes) := by
  unfold decodeEvent at h
  split at h
  case h_1 =>
    cases h
    rfl
  case h_4 w =>
    split at h
    case isTrue hw =>
      cases h
      rw [encode, pollWord_bits hw]
    case isFalse => cases h
  case h_7 w =>
    split at h
    case isTrue hw =>
      cases h
      rw [encode, busyWord_bit hw]
    case isFalse => cases h
  all_goals cases h

/-- The handler of a byte has that byte as its word; its sub-index is 0 where the state has none
(R98). -/
theorem encode_decodeByte (c : Cfg) (ps : PacketState) (bidx : Bit) (b : Byte) :
    ∃ bidx', encode c (decodeByte ps bidx b).instr = some (.byteSlot ps bidx', [b]) := by
  unfold decodeByte
  cases ps with
  | idle =>
    simp only
    split
    case isTrue hb => exact ⟨false, by rw [hb]; rfl⟩
    case isFalse => exact ⟨false, rfl⟩
  | sync1 =>
    simp only
    split
    case isTrue hb => exact ⟨false, by rw [hb]; rfl⟩
    case isFalse => exact ⟨false, rfl⟩
  | readLength => cases bidx <;> exact ⟨_, rfl⟩
  | readChecksum => cases bidx <;> exact ⟨_, rfl⟩
  | _ => exact ⟨false, rfl⟩

/-- The command of a byte has that byte as its word (R100). -/
theorem encode_decodeCommand (c : Cfg) (b : Byte) :
    encode c (decodeCommand c b) = some (.command, [b]) := by
  rw [decodeCommand_eq_ite]
  split_ifs with hinit hprint hdata hstatus
  · rw [hinit]; rfl
  · rw [hprint]; rfl
  · rw [hdata]; rfl
  · rw [hstatus]; rfl
  · rfl

/-- A control byte is its bit 7 above its low seven bits (R103). -/
theorem ofBool_msb_append_runField (b : Byte) : (BitVec.ofBool b.msb ++ runField b : Byte) = b := by
  revert b
  decide

/-- The run of a control byte has that byte as its word (R103). -/
theorem encode_decodeControl (c : Cfg) (b : Byte) :
    encode c (decodeControl b) = some (.control, [b]) := by
  have hb := ofBool_msb_append_runField b
  unfold decodeControl
  split
  case isTrue h =>
    rw [h] at hb
    exact congrArg (fun w => some (Place.control, [w])) hb
  case isFalse h =>
    rw [Bool.eq_false_of_not_eq_true h] at hb
    exact congrArg (fun w => some (Place.control, [w])) hb

/-- Settles O45: level by level, the encoder undoes the decoder. -/
theorem encodeUndoesDecode : Obligations.EncodeUndoesDecode := by
  intro c place bytes i h
  unfold decode at h
  split at h
  case h_1 kind _ => exact ⟨_, encode_of_decodeEvent c h⟩
  case h_2 ps bidx b =>
    cases h
    obtain ⟨bidx', hb⟩ := encode_decodeByte c ps bidx b
    exact ⟨_, hb⟩
  case h_3 b =>
    cases h
    exact ⟨_, encode_decodeCommand c b⟩
  case h_4 b =>
    cases h
    exact ⟨_, encode_decodeControl c b⟩
  all_goals cases h

end Sys2Proof.Machine

/-! Proofs of the obligations on the link: edge detection, one edge, and one byte slot
(spec/40_bit_transport.md R132, R136, spec/41_byte_shifter.md R162, R164, spec/42_packet_fsm.md
R178). -/

namespace Sys2Proof.Machine

/-- Settles O5: the answer left in `ret` is the one a `POLL` branches on. -/
theorem edgeDetectFindsChangesOntoActiveLevel :
    Obligations.EdgeDetectFindsChangesOntoActiveLevel :=
  fun s clk => ⟨_, rfl, rfl, rfl, isActiveEdge_iff s clk⟩

/-- Settles O10: the monitor restarts the idle count, and the one bit sampled is drained at once. -/
theorem activeEdgeShiftsExactlyOneBit : Obligations.ActiveEdgeShiftsExactlyOneBit := by
  intro s clk si hwf hempty hprev hlevel
  refine ⟨_, rfl, ?_⟩
  rcases pollLines_cases s clk si s.cfg.selectAsserted (Cfg.wf_backlog hwf) hempty with
    ⟨hno, -⟩ | ⟨-, hpoll⟩
  · exact absurd ⟨hprev, hlevel⟩ hno
  · rw [hpoll, selectMonitor_of_asserted rfl]
    rfl

/-- Settles O16: eight edges are the byte handler, then the load of the byte it left pending. -/
theorem byteSlotHandlesTheByteThenLoadsTheReply :
    Obligations.ByteSlotHandlesTheByteThenLoadsTheReply := by
  intro s b hrx htx
  refine ⟨byteIn b (s.setShifter { s.shifter with rxSr := b }), rfl, ?_⟩
  rw [execAll_map .shiftEdge shiftEdge exec_shiftEdge, shiftEdge_eight s _ b hrx htx rfl]
  rfl

/-- Settles O19: the table names the skip for every byte but the first sync byte. -/
theorem byteOutsideAFrameIsSkipped : Obligations.ByteOutsideAFrameIsSkipped := by
  refine fun s b => ⟨rfl, fun hidle hb => ?_⟩
  exact exec_byteIn_of_handler (i := .idleSkip b) (by rw [hidle]; exact if_neg hb)

end Sys2Proof.Machine

/-! Proofs of the decompressor's obligations: complete runs, the size bound, and its operations on
their own (spec/44_rle_decompressor.md R230 to R236). -/

namespace Sys2Proof.Machine

/-! ## Round trip (R236) -/

/-- The control byte of a repeat run selects a repeat run of its length (R103, R104). -/
theorem repeatControl_bits (n : BitVec 7) :
    (1#1 ++ n : Byte).getLsbD 7 = true ∧ (1#1 ++ n : Byte).toNat % 128 = n.toNat := by
  revert n
  decide

/-- The control byte of a literal run selects a literal run of its length (R103, R104). -/
theorem literalControl_bits {k : Nat} (h : k < 128) :
    (BitVec.ofNat 8 k).getLsbD 7 = false ∧ (BitVec.ofNat 8 k).toNat = k := by
  have hnat : (BitVec.ofNat 8 k).toNat = k := by
    rw [BitVec.toNat_ofNat]
    omega
  refine ⟨?_, hnat⟩
  rw [BitVec.getLsbD, hnat]
  exact Nat.testBit_lt_two_pow h

/-- A complete run at the head of the stream gives its output before the rest's (R230). -/
theorem decompressBytes_run_append {r : Run} (h : r.ok) (rest : List Byte) :
    decompressBytes (r.bytes ++ rest) = (decompressBytes rest).map (r.output ++ ·) := by
  cases r with
  | repeats n v =>
    obtain ⟨hbit, hlen⟩ := repeatControl_bits n
    have htake := rleTake_repeat hbit v rest
    rw [hlen] at htake
    exact decompressBytes_cons_of_run htake
  | literal first more =>
    obtain ⟨hbit, hlen⟩ := literalControl_bits h
    refine decompressBytes_cons_of_run ((rleTake_literal hbit _).trans ?_)
    simp [hlen, Run.output]

/-- Complete runs decompress to their outputs, by induction on the runs. -/
theorem decompressBytes_runs : ∀ runs : List Run, (∀ r ∈ runs, r.ok) →
    decompressBytes (runs.flatMap Run.bytes) = some (runs.flatMap Run.output)
  | [], _ => decompressBytes_nil
  | r :: runs, h => by
    obtain ⟨hr, hruns⟩ := List.forall_mem_cons.mp h
    rw [List.flatMap_cons, decompressBytes_run_append hr, decompressBytes_runs runs hruns]
    rfl

/-- Settles O33: any bytes are the output of one literal run per byte. -/
theorem decompressUndoesEveryCompressor : Obligations.DecompressUndoesEveryCompressor := by
  refine ⟨decompressBytes_runs, fun data => ⟨data.map (.literal · []), ?_, ?_⟩⟩
  · simp [Run.ok]
  · simp [List.flatMap_map, Run.output]

/-! ## Sizes -/

/-- A run gives at most 128 bytes (R104). -/
theorem rleTake_output_length {c : Byte} {rest more out : List Byte}
    (h : rleTake c rest = some (more, out)) : out.length ≤ 128 := by
  have hn : runLength (runField c) ≤ 128 := (runField c).isLt
  unfold rleTake at h
  split_ifs at h
  · cases rest with
    | nil => cases h
    | cons v rest =>
      cases h
      rwa [List.length_replicate]
  · cases h
    exact (List.length_take_le _ _).trans hn

/-- The output's bound: each run reads two bytes or more and gives 128 bytes or fewer. -/
theorem decompressBytes_length_le (input output : List Byte)
    (h : decompressBytes input = some output) : output.length ≤ 128 * (input.length / 2) := by
  induction hn : input.length using Nat.strong_induction_on generalizing input output with
  | _ n ih =>
    subst hn
    cases input with
    | nil =>
      cases decompressBytes_nil.symm.trans h
      exact Nat.zero_le _
    | cons c rest =>
      rw [decompressBytes_cons] at h
      cases hrun : rleTake c rest with
      | none => simp [hrun] at h
      | some p =>
        obtain ⟨more, out⟩ := p
        simp only [hrun, Option.map_eq_some_iff] at h
        obtain ⟨tail, htail, rfl⟩ := h
        have hmore := rleTake_length hrun
        have hout := rleTake_output_length hrun
        have htaillen := ih more.length (Nat.lt_succ_of_lt hmore) more tail htail rfl
        simp only [List.length_append, List.length_cons]
        omega

/-- Settles O34: repeat runs of 128 are complete runs, so they give all their outputs. -/
theorem decompressedSizeIsBounded : Obligations.DecompressedSizeIsBounded := by
  refine ⟨decompressBytes_length_le, fun k =>
    ⟨(List.replicate k (Run.repeats 127#7 0x00#8)).flatMap Run.output, ?_, ?_⟩⟩
  · rw [← decompressBytes_runs _ fun r hr => by rw [List.eq_of_mem_replicate hr]; trivial]
    simp only [List.flatMap_replicate]
    rfl
  · simp [List.flatMap_replicate, Run.output, Nat.mul_comm]

/-! ## The operations on their own -/

/-- A repeat run on the working values (R232). -/
theorem rleRepeatRun_cons {w : Rle} {v : Byte} {rest : List Byte} (n : BitVec 7)
    (h : w.input = v :: rest) : rleRepeatRun n w =
      { w with input := rest, output := w.output ++ List.replicate (n.toNat + 1) v } := by
  rw [rleRepeatRun, h]
  rfl

/-- A repeat run with no input byte fails (R232). -/
theorem rleRepeatRun_nil {w : Rle} (n : BitVec 7) (h : w.input = []) :
    rleRepeatRun n w = rleFail w := by
  rw [rleRepeatRun, h]

/-- A literal run on the working values (R233). -/
theorem rleLiteralRun_of_le {w : Rle} {n : BitVec 7} (h : n.toNat + 1 ≤ w.input.length) :
    rleLiteralRun n w =
      { w with
        input := w.input.drop (n.toNat + 1)
        output := w.output ++ w.input.take (n.toNat + 1) } :=
  if_neg h.not_gt

/-- A literal run with too few input bytes fails (R233). -/
theorem rleLiteralRun_of_lt {w : Rle} {n : BitVec 7} (h : w.input.length < n.toNat + 1) :
    rleLiteralRun n w = rleFail w :=
  if_pos h

/-- Settles O35: each operation is its run on the working values in `ret`; `DECOMPRESS` answers from
the values it leaves. -/
theorem rleOperationsOnTheirOwn : Obligations.RleOperationsOnTheirOwn := by
  intro s n input
  refine ⟨⟨s.setRet { s.ret with rle := rleRepeatRun n s.ret.rle }, rfl, rfl,
      fun v rest h => ?_, fun h => ?_⟩,
    ⟨s.setRet { s.ret with rle := rleLiteralRun n s.ret.rle }, rfl, rfl, fun h => ?_, fun h => ?_⟩,
    s.setRet { s.ret with rle := rleFinal input }, rfl, rfl, rfl⟩
  · rw [rleRepeatRun_cons n h]
    rfl
  · rw [rleRepeatRun_nil n h]
    exact ⟨rfl, rfl⟩
  · rw [rleLiteralRun_of_le h]
    rfl
  · rw [rleLiteralRun_of_lt h]
    exact ⟨rfl, rfl⟩

end Sys2Proof.Machine

/-! Proofs of the image assembler's obligations: the decoding of a tile row is a bijection, and
`FINALIZE` (spec/45_image_assembler.md R252 to R255, spec/30_encoding.md R110). -/

namespace Sys2Proof.Machine

/-! ## Decoding a tile row (R252) -/

/-- A pixel of a decoded tile row is the two plane bits of its place (R110). -/
theorem decodeTileRow_pixel (d : Vector Byte 320) (r : Fin 8) (j : Fin 20) (c : Fin 8) :
    ∃ row, (decodeTileRow d.toList)[r.val]? = some row ∧
      row[8 * j.val + c.val]? =
        some (BitVec.ofBool ((d[16 * j.val + 2 * r.val + 1]).getLsbD (7 - c.val)) ++
          BitVec.ofBool ((d[16 * j.val + 2 * r.val]).getLsbD (7 - c.val))) := by
  have hj := j.isLt
  have hr := r.isLt
  have hc := c.isLt
  refine ⟨_, decodeTileRow_getElem? _ r.isLt, ?_⟩
  rw [List.getElem?_map, List.getElem?_range (by omega), Option.map_some, tilePixel_eq _ _ c.isLt]
  simp only [List.getD_eq_getElem?_getD, Vector.getElem?_toList]
  rw [Vector.getElem?_eq_getElem (by omega), Vector.getElem?_eq_getElem (by omega)]
  rfl

/-- A pixel is its high plane bit above its low plane bit (R110). -/
theorem pixel_eq_iff (h l h' l' : Bit) :
    (BitVec.ofBool h ++ BitVec.ofBool l : Pixel) = BitVec.ofBool h' ++ BitVec.ofBool l' ↔
      h = h' ∧ l = l' := by
  revert h l h' l'
  decide

/-- The bits of a pixel are its two planes (R110). -/
theorem pixel_bits (v : Pixel) :
    BitVec.ofBool (v.getLsbD 1) ++ BitVec.ofBool (v.getLsbD 0) = v := by
  revert v
  decide

/-- Equal tile rows have equal plane bits everywhere. -/
theorem planes_eq_of_decodeTileRow_eq {d e : Vector Byte 320}
    (h : decodeTileRow d.toList = decodeTileRow e.toList) (r : Fin 8) (j : Fin 20) (c : Fin 8) :
    (d[16 * j.val + 2 * r.val + 1]).getLsbD (7 - c.val) =
        (e[16 * j.val + 2 * r.val + 1]).getLsbD (7 - c.val) ∧
      (d[16 * j.val + 2 * r.val]).getLsbD (7 - c.val) =
        (e[16 * j.val + 2 * r.val]).getLsbD (7 - c.val) := by
  obtain ⟨row, hrow, hpixel⟩ := decodeTileRow_pixel d r j c
  obtain ⟨row', hrow', hpixel'⟩ := decodeTileRow_pixel e r j c
  rw [h, hrow'] at hrow
  cases hrow
  rw [hpixel'] at hpixel
  exact (pixel_eq_iff _ _ _ _).mp (Option.some.inj hpixel).symm

/-- Each of the 320 bytes is a low or a high plane byte of one row of one tile (R246). -/
theorem byteIndex_cases {i : Nat} (h : i < 320) :
    ∃ (j : Fin 20) (r : Fin 8), i = 16 * j.val + 2 * r.val ∨ i = 16 * j.val + 2 * r.val + 1 :=
  ⟨⟨i / 16, by omega⟩, ⟨i % 16 / 2, by omega⟩, by simp only; omega⟩

/-- Tile rows decode injectively: every bit of the input stands in a pixel. -/
theorem decodeTileRow_injective {d e : Vector Byte 320}
    (h : decodeTileRow d.toList = decodeTileRow e.toList) : d = e := by
  refine Vector.ext fun i hi => BitVec.eq_of_getLsbD_eq fun k hk => ?_
  have hcol : k = 7 - (7 - k) := by omega
  obtain ⟨j, r, rfl | rfl⟩ := byteIndex_cases hi
  · rw [hcol]
    exact (planes_eq_of_decodeTileRow_eq h r j ⟨7 - k, by omega⟩).2
  · rw [hcol]
    exact (planes_eq_of_decodeTileRow_eq h r j ⟨7 - k, by omega⟩).1

/-- A pixel of a picture, blank outside it. -/
def pixelAt (picture : List PixelRow) (r x : Nat) : Pixel := (picture.getD r []).getD x 0

/-- The tile row that shows a picture: byte `16 * j + 2 * r + p` holds plane `p` of the eight pixels
of tile column `j` in row `r`, the leftmost in bit 7 (R110). -/
def encodeTileRow (picture : List PixelRow) : Vector Byte 320 :=
  Vector.ofFn fun i => BitVec.ofFnLE fun k : Fin 8 =>
    (pixelAt picture (i % 16 / 2) (8 * (i / 16) + (7 - k))).getLsbD (i % 2)

/-- A plane bit of the tile row that shows a picture is that of the pixel at its place. -/
theorem encodeTileRow_bit (picture : List PixelRow) {i j r p c : Nat} (hi : i < 320)
    (hindex : i = 16 * j + 2 * r + p) (hr : r < 8) (hp : p < 2) (hc : c < 8) :
    ((encodeTileRow picture)[i]).getLsbD (7 - c) =
      (pixelAt picture r (8 * j + c)).getLsbD p := by
  have hrow : i % 16 / 2 = r := by omega
  have htile : i / 16 = j := by omega
  have hplane : i % 2 = p := by omega
  have hcol : 7 - (7 - c) = c := by omega
  have hk : 7 - c < 8 := by omega
  simp only [encodeTileRow, Vector.getElem_ofFn, BitVec.getLsbD_ofFnLE, dif_pos hk, hrow, htile,
    hplane, hcol]

/-- Tile rows decode onto every picture of 8 rows of 160 pixels. -/
theorem decodeTileRow_encodeTileRow {picture : List PixelRow} (h8 : picture.length = 8)
    (h160 : ∀ row ∈ picture, row.length = 160) :
    decodeTileRow (encodeTileRow picture).toList = picture := by
  refine List.ext_getElem (by rw [decodeTileRow_length, h8]) fun r hr hr' => ?_
  have hwidth : picture[r].length = 160 := h160 _ (List.getElem_mem hr')
  refine List.ext_getElem (by rw [decodeTileRow_width (List.getElem_mem hr), hwidth])
    fun x hx hx' => ?_
  rw [hwidth] at hx'
  rw [h8] at hr'
  obtain ⟨j, c, hx8⟩ : ∃ (j : Fin 20) (c : Fin 8), x = 8 * j.val + c.val :=
    ⟨⟨x / 8, by omega⟩, ⟨x % 8, by omega⟩, by simp only; omega⟩
  subst hx8
  obtain ⟨row, hrow, hpixel⟩ := decodeTileRow_pixel (encodeTileRow picture) ⟨r, hr'⟩ j c
  rw [List.getElem?_eq_getElem hr] at hrow
  cases hrow
  rw [List.getElem?_eq_getElem hx] at hpixel
  have hj := j.isLt
  have hlow := encodeTileRow_bit picture (i := 16 * j.val + 2 * r) (by omega) rfl hr'
    Nat.zero_lt_two c.isLt
  have hhigh := encodeTileRow_bit picture (i := 16 * j.val + 2 * r + 1) (by omega) rfl hr'
    Nat.one_lt_two c.isLt
  rw [Option.some.inj hpixel, hhigh, hlow, pixel_bits]
  simp [pixelAt, h8, hr', hwidth, hx']

/-- Settles O38: every input bit stands in one pixel bit, and every pixel bit is one input bit. -/
theorem tileRowDecodeIsABijectionOntoPixels :
    Obligations.TileRowDecodeIsABijectionOntoPixels := by
  refine ⟨fun s d => ⟨_, rfl, rfl, rfl, decodeTileRow_length _, fun r hr => decodeTileRow_width hr,
    decodeTileRow_pixel d⟩, fun s t d e hd he => ?_, fun s picture h8 h160 =>
    ⟨encodeTileRow picture, _, rfl, decodeTileRow_encodeTileRow h8 h160⟩⟩
  have hrows := Host.Outcome.next.inj (hd.trans he.symm)
  exact decodeTileRow_injective (congrArg (fun u : State => u.ret.tileRow) hrows)

/-! ## `FINALIZE` (R253 to R255) -/

/-- The image of an empty buffer has no rows (R255). -/
theorem finishedImage_nil (c : Cfg) (params : PrintParameters) :
    (finishedImage c params []).rows = [] ∧ (finishedImage c params []).height = 0 :=
  ⟨rfl, rfl⟩

/-- The height of the image of a buffer that holds rows (R253). -/
theorem finishedImage_height_of_ne_nil (c : Cfg) (params : PrintParameters)
    {rows : List PixelRow} (h : rows ≠ []) :
    (finishedImage c params rows).height =
      params.marginBefore.toNat * c.marginUnitRows + rows.length +
        params.marginAfter.toNat * c.marginUnitRows := by
  rw [finishedImage, finishedRows_of_ne_nil c params h]
  simp [blankRows, Nat.add_assoc]

/-- Settles O39: the image is the finished buffer, which is empty afterwards. -/
theorem finalizeReturnsTheImageAndClears : Obligations.FinalizeReturnsTheImageAndClears := by
  intro s p q
  refine ⟨_, finishedImage s.cfg p s.rows, rfl, rfl, rfl, rfl, rfl, rfl, rfl, rfl, fun hempty => ?_,
    fun hrows =>
      ⟨finishedRows_of_ne_nil s.cfg p hrows, finishedImage_height_of_ne_nil s.cfg p hrows⟩,
    finishedImage_wf s.cfg p, _, finishedImage s.cfg q [], rfl, rfl, rfl, rfl⟩
  rw [hempty]
  exact finishedImage_nil s.cfg p

end Sys2Proof.Machine

/-! Proofs of the obligations on a step as a whole: which operation it runs, when it runs none, what
it never writes, and what the flags can reach (spec/00_scope.md R7, R11, spec/46_session_controller.md
R272). -/

namespace Sys2Proof.Machine

/-! ## Which operation a step runs (R11, R91) -/

/-- A step whose oldest event decodes runs the operation it decodes to. -/
theorem step_of_decode {s : State} {e : Event} {rest : List Event} {i : Instr}
    (hwf : s.cfg.wf = true) (hin : s.inputs = e :: rest)
    (hdec : decode s.cfg (.event e.kind) e.word = .instr i) :
    step s = exec i (s.setInputs rest) := by
  simp only [step, hwf, if_true, fetch, hin, hdec]

/-- Settles O41: whatever decodes is well formed. -/
theorem stepRunsTheDecodedEvent : Obligations.StepRunsTheDecodedEvent :=
  fun _ _ _ _ hwf hin hdec => ⟨step_of_decode hwf hin hdec, (decode_wellFormed hdec).1⟩

/-- With no event pending a step holds the state (R140). -/
theorem step_of_no_event {s : State} (hwf : s.cfg.wf = true) (hin : s.inputs = []) :
    step s = .next s := by
  simp only [step, hwf, if_true, fetch, hin]

/-- A step whose oldest event is no word of its kind is refused (R91). -/
theorem step_of_reject {s : State} {e : Event} {rest : List Event} {r : Reject}
    (hwf : s.cfg.wf = true) (hin : s.inputs = e :: rest)
    (hdec : decode s.cfg (.event e.kind) e.word = .reject r) : step s = .refused (.badEvent r) := by
  simp only [step, hwf, if_true, fetch, hin, hdec]

/-- Settles O42: the three branches of a step that run nothing. -/
theorem stepWithoutALegalEvent : Obligations.StepWithoutALegalEvent :=
  fun _ => ⟨step_of_no_event, fun hwf _ _ _ => step_of_reject hwf,
    fun hbad => if_neg (ne_true_of_eq_false hbad)⟩

/-! ## What a step never writes (R7) -/

/-- `u` has the configuration, the returned values and the pending events of `s`. -/
def SameEnvironment (s u : State) : Prop := u.cfg = s.cfg ∧ u.ret = s.ret ∧ u.inputs = s.inputs

/-- An edge keeps the environment. -/
theorem SameEnvironment.shiftEdge {s u : State} (v : Bit) (h : SameEnvironment s u) :
    SameEnvironment s (shiftEdge v u) := by
  obtain ⟨hcfg, hret, hin⟩ := h
  exact ⟨(shiftEdge_cfg u v).trans hcfg, (shiftEdge_ret u v).trans hret,
    (shiftEdge_inputs u v).trans hin⟩

/-- A `POLL` keeps the environment. -/
theorem sameEnvironment_pollLines (s : State) (clk si sd : Bit) :
    SameEnvironment s (pollLines clk si sd s) :=
  pollLines_invariant (SameEnvironment s) (fun _ _ => id) (fun _ => id) (fun _ => id)
    (fun _ v => .shiftEdge v) s clk si sd ⟨rfl, rfl, rfl⟩

/-- Settles O57: no wire operation writes the environment, so a step only takes its event. -/
theorem stepNeverWritesTheConfiguration : Obligations.StepNeverWritesTheConfiguration := by
  intro s t hstep
  obtain ⟨-, ⟨-, rfl⟩ | ⟨e, rest, hin, ⟨-, rfl⟩ | ⟨clk, si, sd, -, rfl⟩ | ⟨b, -, rfl⟩⟩⟩ :=
    step_next s hstep
  · exact ⟨rfl, rfl, .inl rfl⟩
  · exact ⟨rfl, rfl, .inr ⟨e, hin⟩⟩
  · obtain ⟨hcfg, hret, hrest⟩ := sameEnvironment_pollLines (s.setInputs rest) clk si sd
    exact ⟨hcfg, hret, .inr ⟨e, by rw [hrest]; exact hin⟩⟩
  · exact ⟨rfl, rfl, .inr ⟨e, hin⟩⟩

/-! ## What the flags reach (R272) -/

/-- States the same but for the reply have the same configuration and transport. -/
theorem SameButReply.cfg_transport {s t : State} (h : SameButReply s t) :
    t.cfg = s.cfg ∧ t.transport = s.transport := by
  obtain ⟨g, a, y, rfl⟩ := h
  exact ⟨rfl, rfl⟩

/-- A write to the transport keeps two states the same but for the reply. -/
theorem SameButReply.setTransport {s t : State} (h : SameButReply s t) (x : Transport) :
    SameButReply (s.setTransport x) (t.setTransport x) := by
  obtain ⟨g, a, y, rfl⟩ := h
  exact ⟨g, a, y, rfl⟩

/-- A bus reset keeps two states the same but for the reply, and resets the reply (R290). -/
theorem SameButReply.resetBus {s t : State} (h : SameButReply s t) :
    SameButReply (resetBus s) (resetBus t) := by
  obtain ⟨g, a, y, rfl⟩ := h
  exact ⟨g, Config.txFillByte, Config.txFillByte, rfl⟩

/-- The select monitor keeps two states the same but for the reply (R131). -/
theorem SameButReply.selectMonitor {s t : State} (h : SameButReply s t) (sd : Bit) :
    SameButReply (selectMonitor sd s) (selectMonitor sd t) := by
  obtain ⟨hcfg, htransport⟩ := h.cfg_transport
  simp only [Machine.selectMonitor, writeSdCnt, hcfg, htransport]
  split_ifs
  · exact h.setTransport _
  · exact (h.setTransport _).resetBus
  · exact h.setTransport _
  · exact h

/-- Sampling keeps two states the same but for the reply (R133, R135). -/
theorem SameButReply.sampleBit {s t : State} (h : SameButReply s t) (si : Bit) :
    SameButReply (sampleBit si s) (sampleBit si t) := by
  obtain ⟨hcfg, htransport⟩ := h.cfg_transport
  simp only [Machine.sampleBit, raise_transportOverflow, hcfg, htransport]
  split_ifs
  · obtain ⟨g, a, y, hreset⟩ := h.resetBus
    exact ⟨g, a, y, congrArg (emitError .transportOverflow) hreset⟩
  · exact h.setTransport _

/-- Draining keeps two states the same but for the reply, turn by turn (R136). -/
theorem SameButReply.drainLoop (n : Nat) : ∀ {s t : State}, SameButReply s t →
    SameButReply (drainLoop n s) (drainLoop n t) := by
  induction n with
  | zero => exact fun h => h
  | succ n ih =>
    intro s t h
    obtain ⟨-, htransport⟩ := h.cfg_transport
    simp only [Machine.drainLoop, htransport]
    cases s.transport.fifo with
    | nil => exact h
    | cons bit rest => exact ih (shiftEdge_sameButReply bit.value (h.setTransport _))

/-- A `POLL` keeps two states the same but for the reply (R130). -/
theorem SameButReply.pollLines {s t : State} (h : SameButReply s t) (clk si sd : Bit) :
    SameButReply (pollLines clk si sd s) (pollLines clk si sd t) := by
  have hmonitor := h.selectMonitor sd
  obtain ⟨hcfg, htransport⟩ := hmonitor.cfg_transport
  have hrecord : SameButReply (recordClock clk (Machine.selectMonitor sd s))
      (recordClock clk (Machine.selectMonitor sd t)) := by
    simp only [recordClock, htransport]
    exact hmonitor.setTransport _
  have hedge : FindsEdge (Machine.selectMonitor sd t) clk ↔
      FindsEdge (Machine.selectMonitor sd s) clk := by
    rw [FindsEdge, FindsEdge, hcfg, htransport]
  by_cases hfinds : FindsEdge (Machine.selectMonitor sd s) clk
  · have hsample := hrecord.sampleBit si
    rw [pollLines_of_findsEdge hfinds, pollLines_of_findsEdge (hedge.mpr hfinds), drainBacklog,
      drainBacklog, hsample.cfg_transport.2]
    exact hsample.drainLoop _
  · rw [pollLines_of_not_findsEdge hfinds, pollLines_of_not_findsEdge (mt hedge.mp hfinds)]
    exact hrecord

/-- The next event does not depend on the flags, so a step runs the same operation whatever they
are. -/
theorem step_setFlags {s : State} {e : Event} {rest : List Event} {i : Instr} (f : Flags)
    (hwf : s.cfg.wf = true) (hin : s.inputs = e :: rest) (hi : NextEvent s i) :
    step (s.setFlags f) = exec i ((s.setInputs rest).setFlags f) := by
  obtain ⟨e', rest', hin', hdec⟩ := hi
  rw [hin] at hin'
  cases hin'
  exact step_of_decode hwf hin hdec

/-- Settles O56: the two steps run the same operation, which keeps the states the same but for flags
and reply. -/
theorem flagsReachOnlyTheReply : Obligations.FlagsReachOnlyTheReply := by
  intro s t f hstep
  change ∃ g sr next, step (s.setFlags f) = .next
    ((t.setFlags g).setShifter { t.shifter with txSr := sr, txNext := next })
  obtain ⟨hwf, ⟨hin, rfl⟩ | ⟨e, rest, hin, ⟨hn, rfl⟩ | ⟨clk, si, sd, hn, rfl⟩ | ⟨b, hn, rfl⟩⟩⟩ :=
    step_next s hstep
  · exact ⟨f, t.shifter.txSr, t.shifter.txNext, step_of_no_event (s := t.setFlags f) hwf hin⟩
  · exact ⟨Flags.reset, Config.txFillByte, Config.txFillByte, step_setFlags f hwf hin hn⟩
  · have hsame : SameButReply (s.setInputs rest) ((s.setInputs rest).setFlags f) :=
      ⟨f, s.shifter.txSr, s.shifter.txNext, rfl⟩
    obtain ⟨g, sr, next, hpoll⟩ := hsame.pollLines clk si sd
    exact ⟨g, sr, next,
      (step_setFlags f hwf hin hn).trans (congrArg Host.Outcome.next hpoll)⟩
  · exact ⟨{ f with busy := b }, s.shifter.txSr, s.shifter.txNext, step_setFlags f hwf hin hn⟩

end Sys2Proof.Machine

/-! Proofs of the invariants' obligations: the link, the frame, the running sum and the image hold at
reset, and every step keeps them (spec/10_state.md, spec/40_bit_transport.md section 4,
spec/42_packet_fsm.md R187, R188, spec/45_image_assembler.md section 3). -/

namespace Sys2Proof.Machine

/-! ## At reset (R46) -/

/-- After reset the backlog is empty and every counter is 0. -/
theorem linkInv_initial (c : Cfg) : LinkInv (State.initial c) := ⟨rfl, rfl, Nat.zero_le _⟩

/-- The frame registers' reset values are in their bounds, in `Idle`. -/
theorem frameInv_of_reset {s : State} (h : s.frame = Frame.reset) : FrameInv s := by
  simp [FrameInv, h, Frame.reset]

/-- Nothing is summed in `Idle`. -/
theorem sumInv_of_reset {s : State} (h : s.frame = Frame.reset) : SumInv s := by
  simp [SumInv, h, Frame.reset]

/-- An empty buffer is in its bounds. -/
theorem imageInv_of_empty {s : State} (h : s.rows = []) : ImageInv s := by
  simp [ImageInv, h]

/-- Settles O46: each invariant reads only fields that have their reset values. -/
theorem invariantsHoldAtReset : Obligations.InvariantsHoldAtReset := by
  have hinitial (c : Cfg) : LinkInv (State.initial c) ∧ FrameInv (State.initial c) ∧
      SumInv (State.initial c) ∧ ImageInv (State.initial c) :=
    ⟨linkInv_initial c, frameInv_of_reset rfl, sumInv_of_reset rfl, imageInv_of_empty rfl⟩
  exact ⟨hinitial, hinitial Cfg.cfg0, fun s => ⟨resetAll s, rfl, linkInv_initial s.cfg,
    frameInv_of_reset rfl, sumInv_of_reset rfl, imageInv_of_empty rfl⟩⟩

/-! ## The link (R136, R28, R23) -/

/-- The select monitor with the clock recorded keeps the link invariant. -/
theorem LinkInv.recordClock_selectMonitor {s : State} (h : LinkInv s) (clk sd : Bit) :
    LinkInv (recordClock clk (selectMonitor sd s)) := by
  obtain ⟨hfifo, hcount, hidle⟩ := h
  rcases selectMonitor_cases s sd with ⟨-, n, hn, e⟩ | ⟨-, e⟩ <;> rw [e]
  · exact ⟨hfifo, hcount, hn hidle⟩
  · exact ⟨rfl, rfl, Nat.le_refl _⟩

/-- An edge keeps the link invariant. -/
theorem LinkInv.shiftEdge {s : State} (h : LinkInv s) (v : Bit) : LinkInv (shiftEdge v s) := by
  obtain ⟨hfifo, hcount, hidle⟩ := h
  refine ⟨?_, shiftEdge_counters s v hcount, ?_⟩
  · rw [shiftEdge_transport, hfifo]
  · rwa [shiftEdge_transport, shiftEdge_cfg]

/-- Settles O47: the parts of a step keep the link invariant. -/
theorem stepKeepsTheLinkInvariant : Obligations.StepKeepsTheLinkInvariant := by
  intro s t h hstep
  obtain ⟨-, rfl⟩ | ⟨e, rest, -, ⟨-, rfl⟩ | ⟨b, -, rfl⟩ | ⟨clk, si, sd, m, -, rfl, hk⟩⟩ :=
    step_cases h.1 hstep
  · exact h
  · exact linkInv_initial s.cfg
  · exact h
  · have hm : LinkInv (recordClock clk (selectMonitor sd (s.setInputs rest))) :=
      LinkInv.recordClock_selectMonitor (s := s.setInputs rest) h clk sd
    rcases hk with ⟨-, rfl⟩ | ⟨-, rfl⟩
    · exact hm
    · exact hm.shiftEdge si

/-! ## The frame (R188, R189) -/

/-- A property of the frame registers that holds at reset and that every byte keeps is kept by every
step: nothing else writes them (R177 to R191, R290, R320). -/
theorem step_frame_invariant (P : State → Prop) (hframe : ∀ u v, v.frame = u.frame → P u → P v)
    (hreset : ∀ u, u.frame = Frame.reset → P u) (hbyte : ∀ u b, P u → P (byteIn b u))
    {s t : State} (hs : P s) (h : step s = .next t) : P t :=
  step_invariant P (fun _ _ => hframe _ _ rfl) (fun _ _ => hframe _ _ rfl)
    (fun _ _ => hframe _ _ rfl) (fun _ _ => hreset _ rfl) (fun _ _ => hframe _ _ rfl)
    (fun _ _ => hreset _ rfl) (fun _ => hframe _ _ rfl) hbyte hs h

/-- The frame invariant reads the frame registers only. -/
theorem FrameInv.of_frame_eq {s t : State} (h : t.frame = s.frame) (hs : FrameInv s) :
    FrameInv t := by
  rwa [FrameInv, h]

/-- A zero length leads straight to the checksum (R184). -/
theorem rdLenHi_of_zero {s : State} {b : Byte} (h : setHighByte s.frame.len b = 0) :
    rdLenHi b s = s.setFrame
      { s.frame with
        len := setHighByte s.frame.len b, sum := addByte s.frame.sum b, bidx := false, pidx := 0,
        pbuf := [], ps := .readChecksum } := by
  rw [rdLenHi, if_pos h]

/-- A length other than zero leads to the payload (R184). -/
theorem rdLenHi_of_ne_zero {s : State} {b : Byte} (h : setHighByte s.frame.len b ≠ 0) :
    rdLenHi b s = s.setFrame
      { s.frame with
        len := setHighByte s.frame.len b, sum := addByte s.frame.sum b, bidx := false, pidx := 0,
        pbuf := [], ps := .readPayload } := by
  rw [rdLenHi, if_neg h]

/-- A byte keeps the frame's counters in their bounds (R188). -/
theorem FrameInv.byteIn {s : State} (h : FrameInv s) (b : Byte) : FrameInv (byteIn b s) := by
  obtain ⟨hlen, hmax, hpay, hdone, -⟩ := h
  unfold FrameInv
  rw [byteIn_frame]
  cases hps : s.frame.ps with
  | idle => by_cases hb : b = Config.sync1 <;> simp [hb, ← hlen, hmax]
  | sync1 => by_cases hb : b = Config.sync2 <;> simp [hb, ← hlen, hmax]
  | sync2 => simp [sync2Cmd, ← hlen, hmax]
  | readCompression => simp [rdComp, ← hlen, hmax]
  | readLength =>
    cases s.frame.bidx with
    | false => simp [rdLenLo, hps, ← hlen, hmax]
    | true =>
      by_cases hzero : setHighByte s.frame.len b = 0
      · simp [rdLenHi_of_zero hzero, hzero]
      · have hpos : 0 < (setHighByte s.frame.len b).toNat :=
          Nat.pos_of_ne_zero fun h => hzero (BitVec.eq_of_toNat_eq h)
        simp [rdLenHi_of_ne_zero hzero, hpos]
  | readPayload =>
    have hlt := hpay hps
    have hnext : s.frame.pidx + 1 ≤ s.frame.len.toNat := hlt
    have hbound : s.frame.pidx + 1 ≤ 65535 := hnext.trans (Nat.le_pred_of_lt s.frame.len.isLt)
    by_cases hlast : s.frame.pidx + 1 = s.frame.len.toNat
    · simp [rdPay_of_last b hlast, ← hlen, ← hlast, Nat.lt_of_succ_le hbound]
    · have hinner : s.frame.pidx + 1 < s.frame.len.toNat := lt_of_le_of_ne hnext hlast
      simp [rdPay_of_inner b hlast, hps, ← hlen, hinner, Nat.lt_of_succ_le hbound]
  | readChecksum =>
    have hall := hdone (.inl hps)
    cases s.frame.bidx with
    | false => simp [rdCksLo, hps, ← hlen, ← hall, hmax]
    | true => simp [compareChecksum, ← hlen, ← hall, hmax]
  | readKeepAlive => simp [← hlen, hmax]

/-- Settles O48: the bus reset and `RESET` leave the reset frame, and bytes keep the bounds. -/
theorem stepKeepsTheFrameInvariant : Obligations.StepKeepsTheFrameInvariant :=
  fun _ _ => step_frame_invariant FrameInv (fun _ _ => .of_frame_eq) (fun _ => frameInv_of_reset)
    fun _ b h => h.byteIn b

/-! ## The running sum (R187) -/

/-- The sum invariant reads the frame registers only. -/
theorem SumInv.of_frame_eq {s t : State} (h : t.frame = s.frame) (hs : SumInv s) : SumInv t := by
  rwa [SumInv, h]

/-- A byte keeps the running sum: each summed byte is added as it is stored (R187). -/
theorem SumInv.byteIn {s : State} (h : SumInv s) (b : Byte) : SumInv (byteIn b s) := by
  unfold SumInv at h ⊢
  rw [byteIn_frame]
  cases hps : s.frame.ps with
  | idle => by_cases hb : b = Config.sync1 <;> simp [hb]
  | sync1 => by_cases hb : b = Config.sync2 <;> simp [hb]
  | sync2 => exact (byteSum_singleton b).symm
  | readCompression =>
    rw [hps] at h
    simp [rdComp, h, ← byteSum_append]
  | readLength =>
    rw [hps] at h
    cases hbidx : s.frame.bidx with
    | false =>
      rw [hbidx] at h
      simp [rdLenLo, hps, h, ← byteSum_append]
    | true =>
      rw [hbidx] at h
      by_cases hzero : setHighByte s.frame.len b = 0
      · simp [rdLenHi_of_zero hzero, h, ← byteSum_append]
      · simp [rdLenHi_of_ne_zero hzero, h, ← byteSum_append]
  | readPayload =>
    rw [hps] at h
    by_cases hlast : s.frame.pidx + 1 = s.frame.len.toNat
    · simp [rdPay_of_last b hlast, h, ← byteSum_append]
    · simp [rdPay_of_inner b hlast, hps, h, ← byteSum_append]
  | readChecksum =>
    rw [hps] at h
    cases s.frame.bidx with
    | false => simpa [rdCksLo, hps] using h
    | true => exact h
  | readKeepAlive => trivial

/-- Settles O49: the bus reset and `RESET` leave the reset frame, and bytes keep the sum. -/
theorem stepKeepsTheRunningSum : Obligations.StepKeepsTheRunningSum :=
  fun _ _ => step_frame_invariant SumInv (fun _ _ => .of_frame_eq) (fun _ => sumInv_of_reset)
    fun _ b h => h.byteIn b

/-! ## The image (R42, R41) -/

/-- The image invariant reads the rows and the configured maximum only. -/
theorem ImageInv.of_rows_eq {s t : State} (hs : ImageInv s) (hcfg : t.cfg = s.cfg)
    (hrows : t.rows = s.rows) : ImageInv t := by
  rwa [ImageInv, hcfg, hrows]

/-- Whole tile rows that fit keep the image in its bounds (R250, R251). -/
theorem ImageInv.setRows_append {s : State} (h : ImageInv s) (data : List Byte) {count : Nat}
    (hfits : s.rows.length + 8 * count ≤ s.cfg.maxHeight) :
    ImageInv (s.setRows (s.rows ++ decodeTileRows data count)) := by
  obtain ⟨-, hwhole, hwidth⟩ := h
  have hlength : (s.rows ++ decodeTileRows data count).length = s.rows.length + 8 * count := by
    rw [List.length_append, decodeTileRows_length]
  refine ⟨hlength.trans_le hfits, ?_, fun r hr => ?_⟩
  · rw [State.setRows_rows, hlength]
    omega
  · rcases List.mem_append.mp hr with hold | hnew
    · exact hwidth r hold
    · exact decodeTileRows_width hnew

/-- Dispatch keeps the image in its bounds. -/
theorem ImageInv.dispatchPacket {s : State} (h : ImageInv s) (pkt : Packet) :
    ImageInv (dispatchPacket pkt s) := by
  rcases dispatchPacket_cases s pkt with e | ⟨-, -, e⟩ | ⟨-, -, data, -, hfits, e⟩ |
    ⟨-, -, _, _, e⟩ | ⟨_, -, e | e⟩ <;> rw [e]
  · exact h
  · exact imageInv_of_empty rfl
  · exact h.setRows_append data hfits
  · exact imageInv_of_empty rfl
  · exact h.of_rows_eq rfl rfl
  · exact h.of_rows_eq rfl rfl

/-- A byte keeps the image in its bounds: only dispatch writes rows. -/
theorem ImageInv.byteIn {s : State} (h : ImageInv s) (b : Byte) : ImageInv (byteIn b s) := by
  rcases byteIn_effect s b with ⟨hrows, -⟩ | ⟨hrows, -⟩ | ⟨-, hrows, -⟩
  · exact h.of_rows_eq (byteIn_cfg s b) hrows
  · exact h.of_rows_eq (byteIn_cfg s b) hrows
  · exact (h.dispatchPacket (packetOf s)).of_rows_eq
      ((byteIn_cfg s b).trans (dispatchPacket_cfg s _).symm) hrows

/-- Settles O50: `RESET` empties the buffer, and of the rest only bytes write it. -/
theorem stepKeepsTheImageInvariant : Obligations.StepKeepsTheImageInvariant :=
  fun _ _ => step_invariant ImageInv (fun _ _ => id) (fun _ _ => id) (fun _ _ => id)
    (fun _ _ => imageInv_of_empty rfl) (fun _ _ => id) (fun _ => id) (fun _ => id)
    fun _ b h => h.byteIn b

end Sys2Proof.Machine

/-! Proofs of the obligations on what a step puts into the trace and on what changes the image
(spec/40_bit_transport.md section 4, spec/60_exceptions.md sections 3 and 4,
spec/45_image_assembler.md R245). -/

namespace Sys2Proof.Machine

/-! ## The trace (R297 to R299) -/

/-- The trace and the rows after `u`, of a part of a step from `s`: nothing is appended; one image is,
with the buffer then empty; or one error other than an overflow is, with the rows as they were. -/
def AtMostOneEvent (s u : State) : Prop :=
  u.out = s.out ∨
    (∃ image params, u.out = s.out ++ [.imageReady image params] ∧ u.rows = []) ∨
    ∃ kind n, kind ≠ .transportOverflow ∧ u.out = s.out ++ [.protocolError kind n] ∧
      u.rows = s.rows

/-- It is a matter of the trace and the rows only. -/
theorem AtMostOneEvent.congr {s s' u u' : State} (h : AtMostOneEvent s u) (hsout : s'.out = s.out)
    (hsrows : s'.rows = s.rows) (hout : u'.out = u.out) (hrows : u'.rows = u.rows) :
    AtMostOneEvent s' u' := by
  rwa [AtMostOneEvent, hsout, hsrows, hout, hrows]

/-- Dispatch appends at most one event (R298, R299). -/
theorem atMostOneEvent_dispatchPacket (s : State) (pkt : Packet) :
    AtMostOneEvent s (dispatchPacket pkt s) := by
  rcases dispatchPacket_cases s pkt with e | ⟨-, -, e⟩ | ⟨-, -, _, -, -, e⟩ |
    ⟨-, -, image, params, e⟩ | ⟨kind, hkind, e | e⟩ <;> rw [e]
  · exact .inl rfl
  · exact .inl rfl
  · exact .inl rfl
  · exact .inr (.inl ⟨image, params, rfl, rfl⟩)
  · exact .inr (.inr ⟨kind, s.draws, hkind, rfl, rfl⟩)
  · exact .inr (.inr ⟨kind, s.draws, hkind, rfl, rfl⟩)

/-- A byte appends at most one event (R298). -/
theorem atMostOneEvent_byteIn (s : State) (b : Byte) : AtMostOneEvent s (byteIn b s) := by
  rcases byteIn_effect s b with ⟨-, hout, -⟩ | ⟨hrows, hout, -⟩ | ⟨-, hrows, hout, -⟩
  · exact .inl hout
  · exact .inr (.inr ⟨.checksumMismatch, s.draws, by decide, hout, hrows⟩)
  · exact (atMostOneEvent_dispatchPacket s (packetOf s)).congr rfl rfl hout hrows

/-- A step from an empty backlog is a `RESET`, which empties the trace, or appends at most one
event. -/
theorem step_atMostOneEvent {s t : State} (hf : s.transport.fifo = []) (h : step s = .next t) :
    (NextEvent s .reset ∧ t.out = []) ∨ AtMostOneEvent s t := by
  rcases step_effect hf h with ⟨hreset, rest, rfl⟩ | ⟨busy, -, -, -, hout, -⟩ |
    ⟨-, -, -, -, -, hout⟩ | ⟨-, -, -, -, hout⟩ | ⟨b, -, w, -, -, -, hrows, hout, z, rfl⟩
  · exact .inl ⟨hreset, rfl⟩
  · exact .inr (.inl hout)
  · exact .inr (.inl hout)
  · exact .inr (.inl hout)
  · exact .inr ((atMostOneEvent_byteIn w b).congr hout.symm hrows.symm rfl rfl)

/-- Settles O52: the events a step appends are no overflows. -/
theorem transportOverflowIsUnreachable : Obligations.TransportOverflowIsUnreachable := by
  rintro s t ⟨hfifo, -⟩ hstep n hmem
  rcases step_atMostOneEvent hfifo hstep with ⟨-, hout⟩ | hout | ⟨_, _, hout, -⟩ |
    ⟨kind, _, hkind, hout, -⟩ <;> rw [hout] at hmem
  · cases hmem
  · exact hmem
  · simpa using hmem
  · simpa [hkind.symm] using hmem

/-- Settles O53: a step other than `RESET` appends at most one event. -/
theorem stepEmitsAtMostOneEvent : Obligations.StepEmitsAtMostOneEvent := by
  rintro s t ⟨hfifo, -⟩ hstep
  rcases step_atMostOneEvent hfifo hstep with ⟨hreset, -⟩ | hout | himage |
    ⟨kind, n, -, hout, hrows⟩
  · exact .inl hreset.reset_kind
  · exact .inr (.inl hout)
  · exact .inr (.inr (.inl himage))
  · exact .inr (.inr (.inr ⟨kind, n, hout, hrows⟩))

/-! ## The image (R245) -/

/-- Only the configured byte is classified as `DATA` (R100). -/
theorem eq_cmdData_of_classify {c : Cfg} {b : Byte} (h : classify c b = .data) :
    b = c.cmdData := by
  unfold classify at h
  split_ifs at h with _ _ hdata
  exact hdata

/-- Only the configured byte is classified as `PRINT` (R100). -/
theorem eq_cmdPrint_of_classify {c : Cfg} {b : Byte} (h : classify c b = .print) :
    b = c.cmdPrint := by
  unfold classify at h
  split_ifs at h with _ hprint
  exact hprint

/-- Dispatch changes the rows only for a checksum-correct packet of an image command. -/
theorem dispatchPacket_rows (s : State) :
    (dispatchPacket (packetOf s) s).rows = s.rows ∨
      (s.frame.ckOk = true ∧ (s.frame.cmd = s.cfg.cmdData ∨ s.frame.cmd = s.cfg.cmdPrint ∨
        s.frame.cmd = s.cfg.cmdInit)) := by
  rcases dispatchPacket_cases s (packetOf s) with e | ⟨hok, hinit, -⟩ | ⟨hok, hdata, -⟩ |
    ⟨hok, hprint, -⟩ | ⟨_, -, e | e⟩
  · exact .inl (by rw [e])
  · exact .inr ⟨hok, .inr (.inr (eq_cmdInit_of_classify hinit))⟩
  · exact .inr ⟨hok, .inl (eq_cmdData_of_classify hdata)⟩
  · exact .inr ⟨hok, .inr (.inl (eq_cmdPrint_of_classify hprint))⟩
  · exact .inl (by rw [e]; rfl)
  · exact .inl (by rw [e]; rfl)

/-- A byte changes the rows only as the keep-alive byte of such a packet. -/
theorem byteIn_rows (s : State) (b : Byte) :
    (byteIn b s).rows = s.rows ∨
      (s.frame.ps = .readKeepAlive ∧ s.frame.ckOk = true ∧
        (s.frame.cmd = s.cfg.cmdData ∨ s.frame.cmd = s.cfg.cmdPrint ∨
          s.frame.cmd = s.cfg.cmdInit)) := by
  rcases byteIn_effect s b with ⟨hrows, -⟩ | ⟨hrows, -⟩ | ⟨hps, hrows, -⟩
  · exact .inl hrows
  · exact .inl hrows
  · exact (dispatchPacket_rows s).imp hrows.trans fun h => ⟨hps, h⟩

/-- Settles O55: a byte that completes is the one part of a step but `RESET` that writes rows. -/
theorem onlyImageCommandsChangeTheImage : Obligations.OnlyImageCommandsChangeTheImage := by
  rintro s t ⟨hfifo, -⟩ hstep hchanged
  rcases step_effect hfifo hstep with ⟨hreset, -⟩ | ⟨busy, -, -, hrows, -⟩ |
    ⟨-, -, -, -, hrows, -⟩ | ⟨-, -, -, hrows, -⟩ | ⟨b, hb, w, hcfg, hframe, -, hrows, -, z, rfl⟩
  · exact .inl hreset
  · exact absurd hrows hchanged
  · exact absurd hrows hchanged
  · exact absurd hrows hchanged
  · rw [← hcfg, ← hframe]
    rcases byteIn_rows w b with hsame | ⟨hps, hok, hcmd⟩
    · exact absurd (hsame.trans hrows) hchanged
    · exact .inr ⟨⟨b, hb⟩, hps, byteIn_ps_of_keepAlive b hps, hok, hcmd⟩

end Sys2Proof.Machine

/-! Proofs of the obligations on dispatch's frame and on a correct frame from its first byte to its
answer (spec/43_packet_dispatch.md R216, spec/30_encoding.md R94, spec/42_packet_fsm.md R177 to
R191). -/

namespace Sys2Proof.Machine

/-- Settles O58: the frame rule of dispatch, read with the four written fields put back. -/
theorem dispatchLeavesTheLinkAndTheFrameAlone :
    Obligations.DispatchLeavesTheLinkAndTheFrameAlone := by
  refine fun s => ⟨dispatchPacket (packetOf s) s, rfl, ?_⟩
  rw [dispatchPacket_frameRule]

/-- The state after a frame whose checksum matches: the packet stands in the registers and the
keep-alive byte is pending (R189). -/
def afterMatch (s : State) (cmd comp : Byte) (payload : List Byte) : State :=
  { s with
    shifter := { s.shifter with txNext := s.cfg.keepAliveByte }
    frame :=
      { ps := .readKeepAlive, bidx := false, pidx := payload.length, cmd, comp,
        len := BitVec.ofNat 16 payload.length, sum := frameSum cmd comp payload,
        cks := frameSum cmd comp payload, ckOk := true, pbuf := payload } }

/-- A frame with the right checksum, from `Idle`, leaves its packet in the registers (R94, R189). -/
theorem byteIn_frameBytes_of_match {s : State} (cmd comp : Byte) {payload : List Byte}
    (hidle : s.frame.ps = .idle) (hlen : payload.length < 65536) :
    (frameBytes cmd comp payload (frameSum cmd comp payload)).foldl (fun u b => byteIn b u) s =
      afterMatch s cmd comp payload := by
  rw [byteIn_frameBytes cmd comp _ hidle hlen, beq_self_eq_true]
  rfl

/-- Settles O59: the frame leaves its packet awaiting the keep-alive byte, which dispatches it; dispatch
of a checksum-correct packet is the command its byte decodes to. -/
theorem correctFrameIsDispatched : Obligations.CorrectFrameIsDispatched := by
  intro s cmd comp ka payload hidle hlen
  have hread := byteIn_frameBytes_of_match cmd comp hidle hlen
  refine ⟨afterMatch s cmd comp payload, _, ?_, rfl,
    exec_decodeCommand (afterMatch s cmd comp payload) rfl, ?_⟩
  · rw [execAll_byteIn, hread]
  · rw [execAll_byteIn, List.foldl_append, hread, List.foldl_cons, List.foldl_nil,
      byteIn_keepAlive _ ka rfl]
    rfl

end Sys2Proof.Machine
